-- ==== Sys2Proof/Word.lean ====
section
/-! DEFINITION. The words of the block: input words, sample patterns, symbol codes, and the seven-entry record that
FREQ, the bin indices and the energies share.

SAMPLE_W is a parameter of the hardware (00_scope.md R5), so the width of an input word and of a sample is a value, not a
type. An input word is the number its WW = SAMPLE_W + 5 bits read as unsigned (30_encoding.md R62, R71); a word of BUF is the
number its SAMPLE_W bits read as unsigned, called its pattern (10_state.md R23, 00_scope.md R15); both are written `Nat` and
each operation takes the width (log entry 2). Fields whose width the spec fixes are bit vectors. -/

namespace Sys2Proof

/-- An 8-bit symbol code (00_scope.md R11). -/
abbrev Symbol := BitVec 8

/-- The 4×3 symbol grid, indexed row first (00_scope.md R11). -/
abbrev Grid := Vector (Vector Symbol 3) 4

/-- One entry for each of the seven target tones: four rows, three columns (00_scope.md R10, 42_classify.md R120). -/
structure Tones (α : Type) where
  row0 : α
  row1 : α
  row2 : α
  row3 : α
  col0 : α
  col1 : α
  col2 : α
  deriving DecidableEq, Repr

end Sys2Proof
end

