-- ==== Sys2Proof/Config.lean ====
section
/-! DEFINITION. The parameters fixed at elaboration (00_scope.md R5 to R13) and the model's free values.
A machine holds one `Config` in its state; no step writes it (70_reset_and_hazards.md R168, log entry 1). -/

namespace Sys2Proof

/-- The magnitude function MAG_FN (00_scope.md R13, 41_spectral.md R104). `reference` is MAG_REF (R105), the default.
`conforming id num den err` is implementation number `id` among those R104 admits. It states property M3 at its own scale
`num / den`, and property M5 with its own accuracy: its value for bin k is the modulus of X[k] at that scale, to within `err`
units. Which scales and accuracies an implementation may have R104 leaves open: that they are these three numbers, in the
domains of `MagFn.scaleOk` and `MagFn.errorOk`, is the model's choice (DESIGN CHOICE, log entry 11). -/
inductive MagFn
  | reference
  | conforming (id num den err : Nat)
  deriving DecidableEq, Repr

/-- The configuration record of 00_scope.md section 3. ENGINE_LATENCY (R14) is no field: it is drawn afresh for every block. -/
structure Config where
  /-- SAMPLE_W (R5). -/
  sampleW : Nat
  /-- FS in Hz (R7). -/
  fs : Nat
  /-- N, the block capacity (R8). -/
  n : Nat
  /-- T, the transform size (R8). -/
  t : Nat
  /-- T_SUPPORTED, as the exponents k of its members 2^k (R9, log entry 19). -/
  tSupportedLog : List Nat
  /-- FREQ in Hz (R10). -/
  freq : Tones Nat
  /-- GRID (R11). -/
  grid : Grid
  /-- THRESHOLD (R12). -/
  threshold : Nat
  /-- MAG_FN (R13). -/
  magFn : MagFn
  deriving DecidableEq, Repr

/-- The values this hardware takes unless instantiated otherwise (00_scope.md parameter summary). -/
def Config.default : Config where
  sampleW := 16
  fs := 8000
  n := 1024
  t := 1024
  tSupportedLog := [1, 2, 3, 4, 5, 6, 7, 8, 9, 10, 11, 12, 13, 14, 15, 16]
  freq := ⟨697, 770, 852, 941, 1209, 1336, 1477⟩
  grid := #v[#v[0x31, 0x32, 0x33], #v[0x34, 0x35, 0x36], #v[0x37, 0x38, 0x39], #v[0x2A, 0x30, 0x23]]
  threshold := 1000
  magFn := .reference

/-- MAG_W = SAMPLE_W - 1 (00_scope.md R6). -/
def Config.magW (c : Config) : Nat := c.sampleW - 1

/-- MAG_MAX = 2^(SAMPLE_W-1) - 1 (00_scope.md R6). -/
def Config.magMax (c : Config) : Nat := 2 ^ (c.sampleW - 1) - 1

/-- WW = SAMPLE_W + 5, the width of an input word (30_encoding.md R62). -/
def Config.wordW (c : Config) : Nat := c.sampleW + 5

/-- Free value (log entry 11): what conforming implementation number `id` computes for a block and a bin before R104's
named properties are imposed. -/
opaque Config.conformingMag : (id : Nat) → Config → (x : List Int) → (k : Nat) → Nat

/-- Free value (log entry 6): the contents of E[i] where the spec leaves E unspecified. -/
opaque Config.freeEnergy : (index : Nat) → (i : Nat) → Nat

/-- Free value (log entry 4): the contents of BUF[i] where the spec leaves them unspecified. -/
opaque Config.freeBufWord : (index : Nat) → (i : Nat) → Nat

/-- Free value (log entry 9): the number on the input ports in a cycle past the end of the given trace. -/
opaque Config.freeWord : (index : Nat) → Nat

/-- Free value (log entry 9): the completion draw of a cycle past the end of the given trace. -/
opaque Config.freeDone : (index : Nat) → Bool

end Sys2Proof
end

