-- ==== Sys2Proof/Syntax.lean ====
section
/-! DEFINITION. The operations of spec/opcode_table.json, one constructor per row. -/

namespace Sys2Proof

/-- The block has no instruction set; a cycle's operation is read from its input word (30_encoding.md R64). A constructor
carries the bits its row reads; bits a row ignores are no operands (log entry 18). The sample is the two's-complement
integer of 30_encoding.md R63. -/
inductive Instr
  /-- RESET (70_reset_and_hazards.md R160). -/
  | reset
  /-- START with `timer_ok` and `irq_ok` (40_acquisition.md R81). -/
  | start (timerOk irqOk : Bool)
  /-- START and TICK in one word (30_encoding.md R65, 40_acquisition.md R84). -/
  | startTick (timerOk irqOk : Bool) (sample : Int)
  /-- TICK with the sample on `sample_in` (40_acquisition.md R84, R86). -/
  | tick (sample : Int)
  /-- NOP (40_acquisition.md R80). -/
  | nop
  /-- The internal event ENGINE_DONE, which no input word encodes (30_encoding.md R67, 42_classify.md R125). -/
  | engineDone
  deriving DecidableEq, Repr

end Sys2Proof
end

