-- ==== Sys2Proof/WellFormed.lean ====
section
/-! DEFINITION. Which terms of the syntax and which configurations the spec admits. -/

namespace Sys2Proof

/-- A sample of SAMPLE_W = `sw` bits: an integer in [-2^(sw-1), 2^(sw-1) - 1] (00_scope.md R5). -/
abbrev SampleInRange (sw : Nat) (x : Int) : Prop := -(2 ^ (sw - 1) : Int) ≤ x ∧ x < (2 ^ (sw - 1) : Int)

/-- An instruction is well formed at SAMPLE_W = `sw` when its sample operand, if any, is a sample (30_encoding.md R63). -/
abbrev Instr.WellFormed (sw : Nat) (i : Instr) : Prop :=
  match i with
  | .reset => True
  | .start _ _ => True
  | .startTick _ _ x => SampleInRange sw x
  | .tick x => SampleInRange sw x
  | .nop => True
  | .engineDone => True

/-- The scale of a conforming MAG_FN is a positive fraction. 41_spectral.md R104 (M3) says "at its own scale" and not which
scales there may be; a scale of zero, at which M3 would say nothing, is left out by the model's choice (DESIGN CHOICE, log entry
11). -/
def MagFn.scaleOk (f : MagFn) : Bool :=
  match f with
  | .reference => true
  | .conforming _ num den _ => decide (0 < num) && decide (0 < den)

/-- The accuracy of a conforming MAG_FN is below full scale. 41_spectral.md R104 (M5) gives no accuracy; an error of MAG_MAX or
more, at which M5 would say nothing, is left out by the model's choice (DESIGN CHOICE, log entry 11). -/
def MagFn.errorOk (magMax : Nat) (f : MagFn) : Bool :=
  match f with
  | .reference => true
  | .conforming _ _ _ err => decide (err < magMax)

/-- The domains of the parameters (00_scope.md R5 to R13): SAMPLE_W >= 2; N a power of two >= 2; THRESHOLD of MAG_W bits; the
scale and the accuracy of MAG_FN as above. T and FS may be any numbers: START checks them (60_exceptions.md R141). -/
abbrev Config.WellFormed (c : Config) : Prop :=
  2 ≤ c.sampleW ∧ 2 ≤ c.n ∧ c.n = 2 ^ Nat.log2 c.n ∧ c.threshold < 2 ^ (c.sampleW - 1) ∧ c.magFn.scaleOk = true ∧
    c.magFn.errorOk c.magMax = true

end Sys2Proof
end

