-- ==== Sys2Proof/Decode.lean ====
section
/-! DEFINITION. Input words to operations and back (30_encoding.md R62 to R64, R71), and the two's-complement reading of a
pattern (00_scope.md R15). -/

namespace Sys2Proof

/-- `sext_w(v)`: the pattern `v` of `w` bits read as a two's-complement integer (00_scope.md R15). -/
def sext (w : Nat) (v : Nat) : Int := (BitVec.ofNat w v).toInt

/-- The `w`-bit two's-complement pattern of an integer; an integer outside the format keeps its low `w` bits. -/
def toPattern (w : Nat) (x : Int) : Nat := (BitVec.ofInt w x).toNat

/-- WW for SAMPLE_W = `sw` (30_encoding.md R62). -/
def wordWidth (sw : Nat) : Nat := sw + 5

/-- The concatenation of 30_encoding.md R62, `rst` most significant. `sample` is a `sw`-bit pattern. -/
def pack (sw : Nat) (rst start tick timerOk irqOk : Bool) (sample : Nat) : Nat :=
  rst.toNat * 2 ^ (sw + 4) + start.toNat * 2 ^ (sw + 3) + tick.toNat * 2 ^ (sw + 2) +
    timerOk.toNat * 2 ^ (sw + 1) + irqOk.toNat * 2 ^ sw + sample

/-- The fields of an input word (30_encoding.md R62). -/
def rstBit (sw : Nat) (w : Nat) : Bool := w.testBit (sw + 4)
def startBit (sw : Nat) (w : Nat) : Bool := w.testBit (sw + 3)
def tickBit (sw : Nat) (w : Nat) : Bool := w.testBit (sw + 2)
def timerOkBit (sw : Nat) (w : Nat) : Bool := w.testBit (sw + 1)
def irqOkBit (sw : Nat) (w : Nat) : Bool := w.testBit sw
def sampleField (sw : Nat) (w : Nat) : Nat := w % 2 ^ sw

/-- Why a number is no input word. R66: no input word is reserved or illegal, so width is the only reason. -/
inductive DecodeRejection
  /-- The number needs more than WW bits (30_encoding.md R62, R73; log entry 17). -/
  | widerThanWord
  deriving DecidableEq, Repr

/-- What the decoder answers. -/
inductive Decoded
  | instr (i : Instr)
  | rejected (r : DecodeRejection)
  deriving DecidableEq, Repr

/-- The row of 30_encoding.md R64 that a word selects: `rst` above `start` above `tick`. -/
def decodeFields (sw : Nat) (w : Nat) : Instr :=
  if rstBit sw w then .reset
  else if startBit sw w then
    if tickBit sw w then .startTick (timerOkBit sw w) (irqOkBit sw w) (sext sw (sampleField sw w))
    else .start (timerOkBit sw w) (irqOkBit sw w)
  else if tickBit sw w then .tick (sext sw (sampleField sw w))
  else .nop

/-- The decoder, total on every number, at SAMPLE_W = `sw`. -/
def decode (sw : Nat) (w : Nat) : Decoded :=
  if w < 2 ^ wordWidth sw then .instr (decodeFields sw w) else .rejected .widerThanWord

/-- The input word of a trace line (30_encoding.md R71): ignored bits as the trace notation has them. ENGINE_DONE has no
word (R67). -/
def encode (sw : Nat) (i : Instr) : Option Nat :=
  match i with
  | .reset => some (pack sw true false false true true 0)
  | .start timerOk irqOk => some (pack sw false true false timerOk irqOk 0)
  | .startTick timerOk irqOk x => some (pack sw false true true timerOk irqOk (toPattern sw x))
  | .tick x => some (pack sw false false true true true (toPattern sw x))
  | .nop => some (pack sw false false false true true 0)
  | .engineDone => none

/-- The host's reading of a row of spec/opcode_table.json, whose words have SAMPLE_W = 16, WW = 21. Bits that only fill the
row up to whole bytes are no part of the word (log entry 17). -/
def decodeTableWord (nbits w : Nat) : Option Instr :=
  match decode 16 (w % 2 ^ nbits % 2 ^ wordWidth 16) with
  | .instr i => some i
  | .rejected _ => none

end Sys2Proof
end

