-- ==== Sys2Proof/Machine/State.lean ====
section
/-! DEFINITION. The state of the block (10_state.md), the ways a step can stop, and the state after reset (R34). -/

namespace Sys2Proof.Machine

/-- STATE, one constructor per 3-bit code (10_state.md R20, log entry 23). -/
inductive Phase
  | idle | buffering | processing | printing | halted | reserved5 | reserved6 | reserved7
  deriving DecidableEq, Repr

/-- DIAG, one constructor per 3-bit code (30_encoding.md R70, log entry 23). -/
inductive Diag
  | none | xformInit | sizeMismatch | timerInit | irqReg | reserved5 | reserved6 | reserved7
  deriving DecidableEq, Repr

/-- The words of BUF written since the last RESET: (index, pattern) pairs. An unlisted word is unspecified, any value
(10_state.md R23): it reads as a free value, `unwrittenWord` (log entries 3 and 4). -/
abbrev Memory := List (Nat × Nat)

/-- The canonical form: indices strictly rising and inside [0, n-1], patterns of `sw` bits. -/
def Memory.wf (n sw : Nat) : Memory → Bool
  | [] => true
  | (i, v) :: m => decide (i < n) && decide (v < 2 ^ sw) && m.all (fun p => decide (i < p.1)) && Memory.wf n sw m

/-- What the block samples in one cycle: the input word, and beside it the engine's completion draw, which matters only
in PROCESSING (30_encoding.md R67, R71). -/
structure CycleInput where
  word : Nat
  done : Bool
  deriving DecidableEq, Repr

/-- The whole state. `cfg` holds the elaboration parameters, which nothing writes; `bufEpoch`, `trace`, `draw` and `freeIndex` are the
model's own (INVENTORY.md, State); the rest is 10_state.md R20 to R28. -/
structure State where
  /-- The elaboration parameters (log entry 1). -/
  cfg : Config
  /-- STATE (R20). -/
  state : Phase
  /-- CURSOR (R21). -/
  cursor : Nat
  /-- DIAG (R22). -/
  diag : Diag
  /-- BUF (R23): its written words. -/
  buf : Memory
  /-- Which free values the other words of BUF hold (log entry 4); no register of the hardware. -/
  bufEpoch : Nat
  /-- det_valid (R24). -/
  detValid : Bool
  /-- det_hit (R25). -/
  detHit : Bool
  /-- det_row (R25). -/
  detRow : BitVec 2
  /-- det_col (R25). -/
  detCol : BitVec 2
  /-- det_sym (R25). -/
  detSym : Symbol
  /-- E[0..6] (R28). -/
  energy : Tones Nat
  /-- The completion draw of the cycle being executed (41_spectral.md R109; log entry 8). -/
  draw : Bool
  /-- The inputs of the cycles to come (log entry 9). -/
  trace : List CycleInput
  /-- The index of the next free value (log entries 6 and 9); no counter of the hardware. -/
  freeIndex : Nat
  deriving DecidableEq, Repr

/-- Stuck states. Each is a state the spec says never occurs, so each is safe: it makes no false claim provable. -/
inductive Fault
  /-- A cycle other than RESET with a reserved STATE or DIAG code: no step is defined (93_implementation_defined.md U6).
  Raised by `byState`. Safe. -/
  | reservedCode
  /-- BufWrite at an index outside [0, N-1] (20_memory.md R40, R47). Raised by `bufWrite`. Safe. -/
  | bufIndexOutOfRange
  /-- The engine runs in a configuration that START refuses (41_spectral.md R100, R101, 70_reset_and_hazards.md R164).
  Raised by `analyse`. Safe. -/
  | engineConfiguration
  deriving DecidableEq, Repr

/-- Inputs that are no event of the machine. Safe: nothing is claimed of them. -/
inductive Refusal
  /-- An instruction with no meaning yet (none is left). -/
  | notModelled (mnemonic : String)
  /-- The number on the input ports needs more than WW bits (log entry 17). Raised by `step`. Safe. -/
  | notInputWord
  /-- ENGINE_DONE outside PROCESSING, where the engine completes nothing (30_encoding.md R67, log entry 16). Raised by
  `execEngineDone`. Safe. -/
  | noEngineEvent
  deriving DecidableEq, Repr

/-- The state after RESET of a block elaborated with configuration `c` (10_state.md R34). BUF lists nothing, so that
each of its words is a free value (log entry 4); E holds zeros by DESIGN CHOICE (log entry 5); the model's own fields start empty
or at 0 (log entries 4, 8 and 9). -/
def State.resetWith (c : Config) : State where
  cfg := c
  state := .idle
  cursor := 0
  diag := .none
  buf := []
  bufEpoch := 0
  detValid := false
  detHit := false
  detRow := 0
  detCol := 0
  detSym := 0x00
  energy := ⟨0, 0, 0, 0, 0, 0, 0⟩
  draw := false
  trace := []
  freeIndex := 0

/-- The machine right after reset, with the default parameters. -/
def State.reset : State := State.resetWith Config.default

end Sys2Proof.Machine
end

