-- ==== Sys2Proof/Machine/Operands.lean ====
section
/-! DEFINITION. Operands and what they are read from: the sample operand, the words of BUF, the seven-entry records and the
startup checks' inputs. -/

namespace Sys2Proof.Machine

/-- Entry i of a seven-entry record, i = 0..3 the rows and 4..6 the columns (00_scope.md R10). -/
def tone {α : Type} (e : Tones α) (i : Fin 7) : α :=
  match i with
  | 0 => e.row0
  | 1 => e.row1
  | 2 => e.row2
  | 3 => e.row3
  | 4 => e.col0
  | 5 => e.col1
  | 6 => e.col2

/-- The seven-entry record of a function of the index. -/
def tonesOf {α : Type} (f : Fin 7 → α) : Tones α := ⟨f 0, f 1, f 2, f 3, f 4, f 5, f 6⟩

/-- ROW[j] = E[j], j = 0..3 (42_classify.md R120). -/
def rowGroup {α : Type} (e : Tones α) (j : Fin 4) : α := tone e ⟨j.val, by omega⟩

/-- COL[j] = E[4 + j], j = 0..2 (42_classify.md R120). -/
def colGroup {α : Type} (e : Tones α) (j : Fin 3) : α := tone e ⟨4 + j.val, by omega⟩

/-- The written word at an index: `none` where no tick has written since the last RESET. -/
def readWord (m : Memory) (i : Nat) : Option Nat :=
  match m with
  | [] => none
  | (j, v) :: rest => if i = j then some v else readWord rest i

/-- `m` with the word at index `i` holding `v`, in canonical form if `m` is. -/
def writeWord (m : Memory) (i : Nat) (v : Nat) : Memory :=
  match m with
  | [] => [(i, v)]
  | (j, u) :: rest =>
    if i < j then (i, v) :: (j, u) :: rest
    else if i = j then (i, v) :: rest
    else (j, u) :: writeWord rest i v

/-- What an unlisted word of BUF reads as: a free value of SAMPLE_W bits, the same at every read until the next RESET
(10_state.md R23, 93_implementation_defined.md U3; log entry 4). -/
def unwrittenWord (sw epoch i : Nat) : Nat := Config.freeBufWord epoch i % 2 ^ sw

/-- The contents of BUF[i] (20_memory.md R43). -/
def bufWord (s : State) (i : Nat) : Nat := (readWord s.buf i).getD (unwrittenWord s.cfg.sampleW s.bufEpoch i)

/-- The sample the engine reads at index `i`: the pattern there, sign-extended (41_spectral.md R100). -/
def readSample (s : State) (i : Nat) : Int := sext s.cfg.sampleW (bufWord s i)

/-- The engine's input block x[0..len-1] with x[n] = sext(BUF[n]) (41_spectral.md R100). -/
def readBlock (s : State) (len : Nat) : List Int := (List.range len).map (readSample s)

/-- T ∈ T_SUPPORTED (00_scope.md R9). -/
def transformSupported (c : Config) : Bool := c.tSupportedLog.any (fun k => c.t == 2 ^ k)

/-- The causes of a startup fault (60_exceptions.md R141). -/
inductive StartupCause
  | xformInit | sizeMismatch | timerInit | irqReg
  deriving DecidableEq, Repr

/-- The DIAG code of a cause (30_encoding.md R70). -/
def diagOf (cause : StartupCause) : Diag :=
  match cause with
  | .xformInit => .xformInit
  | .sizeMismatch => .sizeMismatch
  | .timerInit => .timerInit
  | .irqReg => .irqReg

/-- The startup checks in the order of 60_exceptions.md R141: the first that fails, or `none` if all pass. -/
def startupCheck (c : Config) (timerOk irqOk : Bool) : Option StartupCause :=
  if transformSupported c = false then some .xformInit
  else if c.n ≠ c.t then some .sizeMismatch
  else if c.fs = 0 ∨ timerOk = false then some .timerInit
  else if irqOk = false then some .irqReg
  else none

/-- The configuration passes every check that does not depend on the platform's inputs, so that START admits it. -/
def configAdmitted (c : Config) : Bool := startupCheck c true true == none

end Sys2Proof.Machine
end

