-- ==== Sys2Proof/Machine/Classify.lean ====
section
/-! DEFINITION. threshold_comparator_tree and dtmf_symbol_decoder (42_classify.md R120 to R124, R129). -/

namespace Sys2Proof.Machine

/-- PickGroup (42_classify.md R121): the ascending scan in which a later entry replaces the best only if it is strictly larger,
starting from the threshold. -/
def pickGroup {m : Nat} (e : Fin m → Nat) (th : Nat) : Option (Fin m) :=
  ((List.finRange m).foldl (fun (best : Option (Fin m) × Nat) j => if best.2 < e j then (some j, e j) else best)
    (none, th)).1

/-- A leaf of a comparator tree: the index takes part only if its energy is above the threshold (42_classify.md R122). -/
def treeLeaf {m : Nat} (e : Fin m → Nat) (th : Nat) (j : Fin m) : Option (Fin m) := if th < e j then some j else none

/-- winner(a, b) of 42_classify.md R122: keeps `a` unless `b` takes part and has strictly more energy. -/
def treeWinner {m : Nat} (e : Fin m → Nat) (a b : Option (Fin m)) : Option (Fin m) :=
  match a, b with
  | some i, some j => if e i < e j then some j else some i
  | some i, none => some i
  | none, b => b

/-- The comparator tree of the row group: winner(winner(0,1), winner(2,3)) (42_classify.md R122). -/
def treeRows (e : Fin 4 → Nat) (th : Nat) : Option (Fin 4) :=
  treeWinner e (treeWinner e (treeLeaf e th 0) (treeLeaf e th 1)) (treeWinner e (treeLeaf e th 2) (treeLeaf e th 3))

/-- The comparator tree of the column group: winner(winner(0,1), 2) (42_classify.md R122). -/
def treeCols (e : Fin 3 → Nat) (th : Nat) : Option (Fin 3) :=
  treeWinner e (treeWinner e (treeLeaf e th 0) (treeLeaf e th 1)) (treeLeaf e th 2)

/-- The Detection Result (42_classify.md R123, R124): a symbol at a row and a column, or the "no tone" sentinel. -/
inductive Detection
  | hit (row : Fin 4) (col : Fin 3) (sym : Symbol)
  | noTone
  deriving DecidableEq, Repr

/-- GRID[r][c] (00_scope.md R11). -/
def gridAt (g : Grid) (r : Fin 4) (c : Fin 3) : Symbol := g[r][c]

/-- CLASSIFY(E) (42_classify.md R129): both groups are mandatory. -/
def classify (c : Config) (e : Tones Nat) : Detection :=
  match pickGroup (rowGroup e) c.threshold, pickGroup (colGroup e) c.threshold with
  | some row, some col => .hit row col (gridAt c.grid row col)
  | _, _ => .noTone

end Sys2Proof.Machine
end

