-- ==== Sys2Proof/Machine/Flags.lean ====
section
/-! DEFINITION. Status flags and output ports: functions of the state, with no storage of their own (10_state.md R26, R27, R32,
R33), the arbiter's grants (20_memory.md R44), and which codes are legal (R20, 30_encoding.md R70). -/

namespace Sys2Proof.Machine

/-- The 3-bit code of STATE (10_state.md R20). -/
def phaseCode (p : Phase) : BitVec 3 :=
  match p with
  | .idle => 0
  | .buffering => 1
  | .processing => 2
  | .printing => 3
  | .halted => 4
  | .reserved5 => 5
  | .reserved6 => 6
  | .reserved7 => 7

/-- The 3-bit code of DIAG (30_encoding.md R70). -/
def diagCode (d : Diag) : BitVec 3 :=
  match d with
  | .none => 0
  | .xformInit => 1
  | .sizeMismatch => 2
  | .timerInit => 3
  | .irqReg => 4
  | .reserved5 => 5
  | .reserved6 => 6
  | .reserved7 => 7

/-- The states the block enters (10_state.md R36 item 1): PRINTING and the codes 5 to 7 are reserved (R20). -/
def phaseLegal (p : Phase) : Bool :=
  match p with
  | .idle | .buffering | .processing | .halted => true
  | .printing | .reserved5 | .reserved6 | .reserved7 => false

/-- The DIAG codes the block produces (30_encoding.md R70). -/
def diagLegal (d : Diag) : Bool :=
  match d with
  | .none | .xformInit | .sizeMismatch | .timerInit | .irqReg => true
  | .reserved5 | .reserved6 | .reserved7 => false

/-- A legal STATE and a DIAG code that is produced (93_implementation_defined.md U6). -/
def legalCodes (s : State) : Bool := phaseLegal s.state && diagLegal s.diag

/-- The arbiter's write grant: the acquisition agent owns BUF (20_memory.md R44). -/
def wrGrant (s : State) : Bool := s.state == .buffering

/-- The arbiter's read grant: the analysis agent owns BUF (20_memory.md R44). -/
def rdGrant (s : State) : Bool := s.state == .processing

/-- `tick_en` (10_state.md R26). -/
def tickEn (s : State) : Bool := s.state == .buffering

/-- `halted_o` (10_state.md R27). -/
def haltedO (s : State) : Bool := s.state == .halted

/-- The output ports (10_state.md R33, 30_encoding.md R61): all an observer sees (00_scope.md R19). -/
structure Outputs where
  stateO : BitVec 3
  cursorO : Nat
  diagO : BitVec 3
  haltedO : Bool
  tickEn : Bool
  detValid : Bool
  detHit : Bool
  detRow : BitVec 2
  detCol : BitVec 2
  detSym : BitVec 8
  deriving DecidableEq, Repr

/-- The values on the output ports (10_state.md R33, 30_encoding.md R69, R70). -/
def outputs (s : State) : Outputs where
  stateO := phaseCode s.state
  cursorO := s.cursor
  diagO := diagCode s.diag
  haltedO := haltedO s
  tickEn := tickEn s
  detValid := s.detValid
  detHit := s.detHit
  detRow := s.detRow
  detCol := s.detCol
  detSym := s.detSym

/-- The latched Detection Result on its ports: (det_hit, det_row, det_col, det_sym) (30_encoding.md R68). -/
def detPorts (s : State) : Bool × BitVec 2 × BitVec 2 × Symbol := (s.detHit, s.detRow, s.detCol, s.detSym)

/-- The clear of the detection strobe in every cycle that completes no analysis (40_acquisition.md R93). -/
def clearValid (s : State) : State := { s with detValid := false }

end Sys2Proof.Machine
end

