-- ==== Sys2Proof/Machine/Spectral.lean ====
section
/-! DEFINITION. fft_or_goertzel_engine and magnitude_extractor (41_spectral.md): bin indices, MAG_REF in exact integer
arithmetic, MAG_FN, the energy vector.

MAG_REF is floor(|X[k]| / T) in exact real arithmetic (R105). T is a power of two, so the cosines in X[k] are sums of nested
square roots of two, in which +, * and the sign are exact integer computations (log entry 12). -/

namespace Sys2Proof.Machine

/-- The canonical bin of a frequency, round half up in exact integers (41_spectral.md R101). -/
def binIndex (fs t f : Nat) : Nat := (2 * f * t + fs) / (2 * fs)

/-- b[0..6] (41_spectral.md R101). -/
def bins (c : Config) : Tones Nat := tonesOf (fun i => binIndex c.fs c.t (tone c.freq i))

/-- A bin of the half-spectrum (41_spectral.md R102). -/
def binValid (t b : Nat) : Bool := decide (b < t / 2)

/-- Numbers of level L: integers at level 0, and pairs (a, b) for a + b·γ(L+1) at level L + 1, where γ(0) = 0 and
γ(L+1) = sqrt(2 + γ(L)); so γ(L) = 2·cos(π / 2^(L+1)). -/
def Surd : Nat → Type
  | 0 => Int
  | L + 1 => Surd L × Surd L

/-- The integer z at level L. -/
def surdInt : (L : Nat) → Int → Surd L
  | 0, z => z
  | L + 1, z => (surdInt L z, surdInt L 0)

/-- Sum. -/
def surdAdd : (L : Nat) → Surd L → Surd L → Surd L
  | 0, a, b => Int.add a b
  | L + 1, a, b => (surdAdd L a.1 b.1, surdAdd L a.2 b.2)

/-- Difference. -/
def surdSub : (L : Nat) → Surd L → Surd L → Surd L
  | 0, a, b => Int.sub a b
  | L + 1, a, b => (surdSub L a.1 b.1, surdSub L a.2 b.2)

/-- Product with an integer. -/
def surdScale : (L : Nat) → Int → Surd L → Surd L
  | 0, z, a => Int.mul z a
  | L + 1, z, a => (surdScale L z a.1, surdScale L z a.2)

/-- Product with γ(L). -/
def surdMulGamma : (L : Nat) → Surd L → Surd L
  | 0, _ => (0 : Int)
  | L + 1, a => (surdAdd L (surdAdd L a.2 a.2) (surdMulGamma L a.2), a.1)

/-- Product with γ(L+1)² = 2 + γ(L). -/
def surdMulGammaSq (L : Nat) (a : Surd L) : Surd L := surdAdd L (surdAdd L a a) (surdMulGamma L a)

/-- Product. -/
def surdMul : (L : Nat) → Surd L → Surd L → Surd L
  | 0, a, b => Int.mul a b
  | L + 1, a, b =>
    (surdAdd L (surdMul L a.1 b.1) (surdMulGammaSq L (surdMul L a.2 b.2)),
      surdAdd L (surdMul L a.1 b.2) (surdMul L a.2 b.1))

/-- The sign, -1, 0 or 1. Where a and b·γ have opposite signs, the larger square decides. -/
def surdSign : (L : Nat) → Surd L → Int
  | 0, a => Int.sign a
  | L + 1, a =>
    let sa := surdSign L a.1
    let sb := surdSign L a.2
    if sa = sb then sa
    else if sa = 0 then sb
    else if sb = 0 then sa
    else sa * surdSign L (surdSub L (surdMul L a.1 a.1) (surdMulGammaSq L (surdMul L a.2 a.2)))

/-- γ(L) at level L. -/
def surdGamma (L : Nat) : Surd L := surdMulGamma L (surdInt L 1)

/-- `len` terms of a sequence from `a`, `b` on, each later term γ(L) times the last less the one before. -/
def cosFrom (L : Nat) : (len : Nat) → (a b : Surd L) → List (Surd L)
  | 0, _, _ => []
  | len + 1, a, b => a :: cosFrom L len b (surdSub L (surdMulGamma L b) a)

/-- 2·cos(2πj / 2^(L+2)) for j = 0 .. 2^(L+2) - 1. -/
def cosTable (L : Nat) : List (Surd L) := cosFrom L (2 ^ (L + 2)) (surdInt L 2) (surdGamma L)

/-- The sum over n of x[n] times the table's entry at index (step·n + phase) mod the table's length, n counting from `n`. -/
def tableSum (L : Nat) (table : List (Surd L)) (step phase : Nat) : (n : Nat) → (x : List Int) → Surd L
  | _, [] => surdInt L 0
  | n, v :: x =>
    surdAdd L (surdScale L v (table.getD ((step * n + phase) % 2 ^ (L + 2)) (surdInt L 0)))
      (tableSum L table step phase (n + 1) x)

/-- The level for T = 2^m: the table of 2^(L+2) angles holds the T-th parts of the circle. -/
def levelOf (m : Nat) : Nat := m - 2

/-- 4·|X[k]|² for a block of T = 2^m samples (41_spectral.md R103): the squares of 2·Re X[k] and 2·Im X[k]. A phase of three
quarters of the circle turns the cosine into the sine. -/
def energySq4 (m : Nat) (x : List Int) (k : Nat) : Surd (levelOf m) :=
  let L := levelOf m
  let table := cosTable L
  let step := k * (2 ^ (L + 2) / 2 ^ m)
  let re := tableSum L table step 0 0 x
  let im := tableSum L table step (3 * 2 ^ L) 0 x
  surdAdd L (surdMul L re re) (surdMul L im im)

/-- |X[k]|·num >= q, given 4·|X[k]|². -/
def modulusAtLeast (L : Nat) (sq4 : Surd L) (num q : Nat) : Bool :=
  decide (0 ≤ surdSign L (surdSub L (surdScale L (num * num) sq4) (surdInt L (4 * (q * q)))))

/-- |X[k]|·num > q·den, given 4·|X[k]|². -/
def modulusAbove (L : Nat) (sq4 : Surd L) (num den q : Nat) : Bool :=
  decide (0 < surdSign L (surdSub L (surdScale L (num * num) sq4) (surdInt L (4 * ((q * den) * (q * den))))))

/-- The largest number of at most `bits` more binary digits above `q` at which a threshold test still holds. -/
def largestHolding (test : Nat → Bool) : (bits : Nat) → (q : Nat) → Nat
  | 0, q => q
  | bits + 1, q => largestHolding test bits (if test (q + 2 ^ bits) then q + 2 ^ bits else q)

/-- min(MAG_MAX, floor(|X[k]|·num/den)) for T = 2^m: the modulus of bin k at the scale num/den, in the magnitude range
(41_spectral.md R103, R106). SAMPLE_W binary digits hold every number up to MAG_MAX. -/
def scaledMag (sw m num den : Nat) (x : List Int) (k : Nat) : Nat :=
  let sq4 := energySq4 m x k
  min (2 ^ (sw - 1) - 1) (largestHolding (fun q => modulusAtLeast (levelOf m) sq4 num (q * den)) sw 0)

/-- MAG_REF(x, k) = min(MAG_MAX, floor(|X[k]| / T)) for T = 2^m (41_spectral.md R105). -/
def magRef (sw m : Nat) (x : List Int) (k : Nat) : Nat := scaledMag sw m 1 (2 ^ m) x k

/-- `v` moved into [a - err, a + err]. -/
def within (a err v : Nat) : Nat := min (a + err) (max (a - err) v)

/-- A conforming MAG_FN (41_spectral.md R104): 0 on the all-zero block (M4); MAG_MAX where the exact modulus at its own scale
exceeds MAG_MAX (M3); otherwise any value in range (M2) that is the modulus of bin k at that scale to within its own accuracy
(M5). -/
def magConforming (c : Config) (id num den err m : Nat) (x : List Int) (k : Nat) : Nat :=
  if x.all (fun v => v == 0) then 0
  else if modulusAbove (levelOf m) (energySq4 m x k) num den c.magMax then c.magMax
  else min c.magMax (within (scaledMag c.sampleW m num den x k) err (Config.conformingMag id c x k))

/-- MAG_FN(x, k) (00_scope.md R13). -/
def magFn (c : Config) (x : List Int) (k : Nat) : Nat :=
  match c.magFn with
  | .reference => magRef c.sampleW (Nat.log2 c.t) x k
  | .conforming id num den err => magConforming c id num den err (Nat.log2 c.t) x k

/-- ENERGIES(x): the magnitude at each target's bin, 0 where the bin is out of range (41_spectral.md R107, R112). -/
def energies (c : Config) (x : List Int) : Tones Nat :=
  tonesOf (fun i => if binValid c.t (tone (bins c) i) then magFn c x (tone (bins c) i) else 0)

end Sys2Proof.Machine
end

