-- ==== Sys2Proof/Machine/Ops.lean ====
section
/-! DEFINITION. The shared operations: sampling the inputs, BufWrite, the startup fault and the reset that leaves it, the
acquisition of a sample, the engine step and its completion. Every write of a cycle reads pre-edge values (00_scope.md R16). -/

namespace Sys2Proof.Machine

/-- What an operation of the block answers. -/
abbrev Result := Host.Outcome State Fault Refusal

/-- Goes on with a next state; a fault or a refusal stands. -/
def andThen (r : Result) (f : State → Result) : Result :=
  match r with
  | .next s => f s
  | .fault e => .fault e
  | .refused e => .refused e

/-- The inputs of the coming cycle: the head of the trace, or past its end free values (log entry 9). -/
def nextInput (s : State) : CycleInput :=
  match s.trace with
  | c :: _ => c
  | [] => ⟨Config.freeWord s.freeIndex % 2 ^ wordWidth s.cfg.sampleW, Config.freeDone s.freeIndex⟩

/-- The state in which the cycle with inputs `c` executes: the input taken from the trace, its completion draw presented. -/
def sampleInput (c : CycleInput) (s : State) : State :=
  { s with draw := c.done, trace := s.trace.tail, freeIndex := s.freeIndex + 1 }

/-- `trace` with the word `w` in its first cycle, that cycle's draw as it was (0 where there was none; log entry 9). -/
def withNextWord (w : Nat) (trace : List CycleInput) : List CycleInput :=
  match trace with
  | c :: rest => ⟨w, c.done⟩ :: rest
  | [] => [⟨w, false⟩]

/-- One row of the table of 30_encoding.md R64: what the cycle performs in each legal STATE. A reserved STATE or DIAG code has
no step (93_implementation_defined.md U6). -/
def byState (s : State) (idle buffering processing halted : Result) : Result :=
  if diagLegal s.diag then
    match s.state with
    | .idle => idle
    | .buffering => buffering
    | .processing => processing
    | .halted => halted
    | .printing | .reserved5 | .reserved6 | .reserved7 => .fault .reservedCode
  else .fault .reservedCode

/-- The contents of E where the spec leaves them unspecified: seven free values of MAG_W bits (log entry 6). -/
def freeEnergies (s : State) : Tones Nat :=
  tonesOf (fun i => Config.freeEnergy s.freeIndex i.val % 2 ^ s.cfg.magW)

/-- RESET (70_reset_and_hazards.md R160), also the way back from HALTED (60_exceptions.md R145). BUF and E become unspecified:
the words of BUF become new free values (log entry 4), E too (log entry 6). -/
def resetBlock (s : State) : State :=
  { s with
    state := .idle, cursor := 0, diag := .none, buf := [], bufEpoch := s.freeIndex, detValid := false, detHit := false,
    detRow := 0, detCol := 0, detSym := 0x00, energy := freeEnergies s }

/-- `raise StartupFault(code)` (60_exceptions.md R144), the only exception: DIAG takes the code, STATE becomes HALTED. -/
def raiseStartupFault (cause : StartupCause) (s : State) : State :=
  { s with diag := diagOf cause, state := .halted, detValid := false }

/-- The start of the pipeline when every check passes (40_acquisition.md R81). -/
def enterBuffering (s : State) : State := { s with state := .buffering, detValid := false }

/-- START in IDLE (40_acquisition.md R81): the checks, then the pipeline or the startup fault. -/
def startPipeline (timerOk irqOk : Bool) (s : State) : Result :=
  match startupCheck s.cfg timerOk irqOk with
  | some cause => .next (raiseStartupFault cause s)
  | none => .next (enterBuffering s)

/-- A cycle that performs nothing: only the detection strobe is cleared (40_acquisition.md R80). -/
def nopCycle (s : State) : Result := .next (clearValid s)

/-- `s` with word `i` of BUF holding the pattern `v`. -/
def storeWord (i : Nat) (v : Nat) (s : State) : State := { s with buf := writeWord s.buf i v }

/-- BufWrite(i, v) (20_memory.md R42): the index space is [0, N-1] (R40). -/
def bufWrite (i : Nat) (v : Nat) (s : State) : Result :=
  if i < s.cfg.n then .next (storeWord i v s) else .fault .bufIndexOutOfRange

/-- The cursor after a write at CURSOR: the write at N-1 fills the buffer, sets CURSOR to 0 and enters PROCESSING
(40_acquisition.md R84, R85). -/
def advanceCursor (s : State) : State :=
  if s.cursor = s.cfg.n - 1 then { s with cursor := 0, state := .processing, detValid := false }
  else { s with cursor := s.cursor + 1, detValid := false }

/-- An accepted TICK (40_acquisition.md R84): the sample is stored unchanged at CURSOR. -/
def acceptTick (sample : Int) (s : State) : Result :=
  andThen (bufWrite s.cursor (toPattern s.cfg.sampleW sample) s) (fun s' => .next (advanceCursor s'))

/-- `s` with the energy vector `e`. -/
def loadEnergy (e : Tones Nat) (s : State) : State := { s with energy := e }

/-- magnitude_extractor: E of the block in BUF (41_spectral.md R100, R107; log entry 7). The block has N = T samples, which is
what START admits. -/
def analyse (s : State) : Result :=
  if configAdmitted s.cfg then .next (loadEnergy (energies s.cfg (readBlock s s.cfg.t)) s) else .fault .engineConfiguration

/-- `emit(hit, row, col, sym)` (42_classify.md R125, 30_encoding.md R68): the Detection Result on its ports, the strobe
raised. -/
def emit (d : Detection) (s : State) : State :=
  match d with
  | .hit r c sym =>
    { s with detValid := true, detHit := true, detRow := BitVec.ofNat 2 r.val, detCol := BitVec.ofNat 2 c.val, detSym := sym }
  | .noTone => { s with detValid := true, detHit := false, detRow := 0, detCol := 0, detSym := 0x00 }

/-- The end of the analysis (42_classify.md R125): the result of E emitted, STATE back to BUFFERING, E discarded
(41_spectral.md R110, log entry 6). -/
def complete (s : State) : State :=
  { emit (classify s.cfg s.energy) s with state := .buffering, energy := freeEnergies s }

/-- ENGINE_DONE (42_classify.md R125): the energies of the block, then its completion. -/
def engineDone (s : State) : Result := andThen (analyse s) (fun s' => .next (complete s'))

/-- The engine step of a PROCESSING cycle (41_spectral.md R109): the completion draw decides. -/
def engineStep (s : State) : Result :=
  if s.draw then engineDone s else andThen (analyse s) (fun s' => .next (clearValid s'))

end Sys2Proof.Machine
end

