-- ==== Sys2Proof/Machine/Acquisition.lean ====
section
/-! DEFINITION. The operations with or without a tick: START_TICK, TICK, NOP (40_acquisition.md R80, R84, R86;
30_encoding.md R65). -/

namespace Sys2Proof.Machine

/-- START and TICK in one word: IDLE drops the tick, BUFFERING ignores the start (30_encoding.md R65, 40_acquisition.md R82). -/
def execStartTick (timerOk irqOk : Bool) (sample : Int) (s : State) : Result :=
  byState s (startPipeline timerOk irqOk s) (acceptTick sample s) (engineStep s) (nopCycle s)

/-- TICK: accepted in BUFFERING, dropped elsewhere (40_acquisition.md R84, R86). -/
def execTick (sample : Int) (s : State) : Result :=
  byState s (nopCycle s) (acceptTick sample s) (engineStep s) (nopCycle s)

/-- NOP: an engine step in PROCESSING, nothing elsewhere (40_acquisition.md R80, 41_spectral.md R109). -/
def execNop (s : State) : Result := byState s (nopCycle s) (nopCycle s) (engineStep s) (nopCycle s)

end Sys2Proof.Machine
end

