-- ==== Sys2Proof/Machine/Completion.lean ====
section
/-! DEFINITION. The internal event ENGINE_DONE (42_classify.md R125). -/

namespace Sys2Proof.Machine

/-- ENGINE_DONE as an event of its own: it occurs in PROCESSING only (42_classify.md R125, 30_encoding.md R67; log entry 16).
In a step it is taken by the engine step whose draw is 1. -/
def execEngineDone (s : State) : Result :=
  byState s (.refused .noEngineEvent) (.refused .noEngineEvent) (engineDone s) (.refused .noEngineEvent)

end Sys2Proof.Machine
end

