-- ==== Sys2Proof/Machine/Control.lean ====
section
/-! DEFINITION. The control operations RESET and START (70_reset_and_hazards.md R160, 40_acquisition.md R81, R82). -/

namespace Sys2Proof.Machine

/-- RESET: in every STATE, above everything else (70_reset_and_hazards.md R160, R161; 30_encoding.md R64). -/
def execReset (s : State) : Result := .next (resetBlock s)

/-- START without a tick: acts in IDLE only (40_acquisition.md R81, R82). -/
def execStart (timerOk irqOk : Bool) (s : State) : Result :=
  byState s (startPipeline timerOk irqOk s) (nopCycle s) (engineStep s) (nopCycle s)

end Sys2Proof.Machine
end

