-- ==== Sys2Proof/Machine/Dispatch.lean ====
section
/-! DEFINITION. One arm per row of spec/opcode_table.json. -/

namespace Sys2Proof.Machine

def exec (i : Instr) (s : State) : Host.Outcome State Fault Refusal :=
  match i with
  | .reset => Sys2Proof.Machine.execReset s
  | .start timerOk irqOk => Sys2Proof.Machine.execStart timerOk irqOk s
  | .startTick timerOk irqOk sample => Sys2Proof.Machine.execStartTick timerOk irqOk sample s
  | .tick sample => Sys2Proof.Machine.execTick sample s
  | .nop => Sys2Proof.Machine.execNop s
  | .engineDone => Sys2Proof.Machine.execEngineDone s

end Sys2Proof.Machine
end

