-- ==== Sys2Proof/Machine/Step.lean ====
section
/-! DEFINITION. One clock cycle (00_scope.md R17): sample the inputs, decode the word, perform the operation. -/

namespace Sys2Proof.Machine

/-- One cycle. A number that is no input word is no event of the machine (log entry 17). -/
def step (s : State) : Host.Outcome State Fault Refusal :=
  match decode s.cfg.sampleW (nextInput s).word with
  | .instr i => exec i (sampleInput (nextInput s) s)
  | .rejected _ => .refused .notInputWord

/-- `s` with the word `w` on the input ports in its next cycle. The completion draw of that cycle stays as the trace has it,
0 where the trace is empty. -/
def State.withFetchWord (s : State) (nbits w : Nat) : State :=
  { s with trace := withNextWord (w % 2 ^ nbits % 2 ^ wordWidth s.cfg.sampleW) s.trace }

end Sys2Proof.Machine
end

