-- ==== Sys2Proof/Machine/Trace.lean ====
section
/-! DEFINITION. The trace notation, the block's assembler syntax (30_encoding.md R71, R72). -/

namespace Sys2Proof.Machine

/-- A line of a trace or a pseudo-operation. `line i done` is the line of an input operation, `done` its `/done` mark
(30_encoding.md R71); the others are those of R72. -/
inductive TraceItem
  | line (i : Instr) (done : Bool)
  | ticks (samples : List Int)
  | idle (k : Nat)
  | waitDone
  | wait (k : Nat)
  deriving DecidableEq, Repr

/-- The lines an item stands for (30_encoding.md R72), each an operation and its completion draw. -/
def expandItem (t : TraceItem) : List (Instr × Bool) :=
  match t with
  | .line i done => [(i, done)]
  | .ticks samples => samples.map (fun x => (.tick x, false))
  | .idle k => List.replicate k (.nop, false)
  | .waitDone => [(.nop, true)]
  | .wait k => List.replicate (k - 1) (.nop, false) ++ [(.nop, true)]

/-- The inputs of a line; ENGINE_DONE is no line (30_encoding.md R67). -/
def assembleLine (sw : Nat) (l : Instr × Bool) : Option CycleInput := (encode sw l.1).map (fun w => ⟨w, l.2⟩)

/-- The inputs of a trace, one per clock cycle. -/
def assemble (sw : Nat) (ts : List TraceItem) : Option (List CycleInput) :=
  (ts.flatMap expandItem).mapM (assembleLine sw)

/-- The block with a trace to run after the inputs it already has (log entry 9). -/
def loadTrace (cs : List CycleInput) (s : State) : State := { s with trace := s.trace ++ cs }

end Sys2Proof.Machine
end

