-- ==== Sys2Proof/Safety.lean ====
section
/-! DEFINITION. What holds in every state a run reaches (10_state.md R36), what a cycle does to the acquisition, and what an
observer sees of a run. Claims are stated in these terms. -/

namespace Sys2Proof.Machine

/-- How many words of BUF hold samples of the current block: those below CURSOR in BUFFERING, all N in PROCESSING
(20_memory.md R48, R49). -/
def liveWords (s : State) : Nat :=
  match s.state with
  | .buffering => s.cursor
  | .processing => s.cfg.n
  | .idle | .printing | .halted | .reserved5 | .reserved6 | .reserved7 => 0

/-- The invariants of 10_state.md R36, with those of the registers they rest on. -/
structure Invariants (s : State) : Prop where
  /-- The parameters are in their domains (00_scope.md R5 to R12). -/
  config : s.cfg.WellFormed
  /-- R36 item 1 and the reserved DIAG codes (10_state.md R33). -/
  codes : legalCodes s = true
  /-- R36 item 2. -/
  cursor : s.cursor < s.cfg.n
  /-- R36 item 3. -/
  cursorZero : s.state ≠ .buffering → s.cursor = 0
  /-- R36 item 4. -/
  halted : s.diag ≠ .none ↔ s.state = .halted
  /-- No configuration that START refuses reaches the running pipeline (70_reset_and_hazards.md R164). -/
  admitted : s.state = .buffering ∨ s.state = .processing → configAdmitted s.cfg = true
  /-- The canonical form of BUF: indices rising in [0, N-1], patterns of SAMPLE_W bits (20_memory.md R40). -/
  memory : Memory.wf s.cfg.n s.cfg.sampleW s.buf = true
  /-- Every word of the current block is written since the last RESET (20_memory.md R48). -/
  written : ∀ i < liveWords s, (readWord s.buf i).isSome = true
  /-- R36 item 7. -/
  strobe : s.detValid = true → s.state = .buffering
  /-- A symbol stands with its row, its column and its code (10_state.md R25, 30_encoding.md R68). -/
  symbol : s.detHit = true →
    ∃ (r : Fin 4) (c : Fin 3), s.detRow = BitVec.ofNat 2 r.val ∧ s.detCol = BitVec.ofNat 2 c.val ∧ s.detSym = gridAt s.cfg.grid r c
  /-- "No tone" stands with zeros (10_state.md R25, 30_encoding.md R68). -/
  noTone : s.detHit = false → s.detRow = 0 ∧ s.detCol = 0 ∧ s.detSym = 0x00
  /-- E holds MAG_W-bit values (10_state.md R28). -/
  energy : ∀ i, tone s.energy i < 2 ^ s.cfg.magW
  /-- The environment drives WW bits (30_encoding.md R62). -/
  inputs : ∀ c ∈ s.trace, c.word < 2 ^ wordWidth s.cfg.sampleW

/-- The operation of the coming cycle, `none` where the ports hold no input word. -/
def nextInstr (s : State) : Option Instr :=
  match decode s.cfg.sampleW (nextInput s).word with
  | .instr i => some i
  | .rejected _ => none

/-- The sample of the coming cycle's tick if that tick is accepted (40_acquisition.md R84). -/
def acceptedSample (s : State) : Option Int :=
  match s.state, nextInstr s with
  | .buffering, some (.tick x) => some x
  | .buffering, some (.startTick _ _ x) => some x
  | _, _ => none

/-- The coming cycle is a buffer-full event: the transition from BUFFERING to PROCESSING (40_acquisition.md R85). -/
def bufferFull (s : State) : Bool :=
  s.state == .buffering &&
    match step s with
    | .next t => t.state == .processing
    | .fault _ => false
    | .refused _ => false

/-- `k` cycles of the machine, stopping at the first fault or refusal. -/
def runCycles (k : Nat) (s : State) : Result :=
  match k with
  | 0 => .next s
  | k + 1 => andThen (step s) (fun t => runCycles k t)

/-- Accepted ticks in the next `k` cycles (40_acquisition.md R90). -/
def acceptedIn (k : Nat) (s : State) : Nat :=
  match k with
  | 0 => 0
  | k + 1 =>
    (if (acceptedSample s).isSome then 1 else 0) +
      match step s with
      | .next t => acceptedIn k t
      | .fault _ => 0
      | .refused _ => 0

/-- Buffer-full events in the next `k` cycles (40_acquisition.md R90). -/
def fullsIn (k : Nat) (s : State) : Nat :=
  match k with
  | 0 => 0
  | k + 1 =>
    (if bufferFull s then 1 else 0) +
      match step s with
      | .next t => fullsIn k t
      | .fault _ => 0
      | .refused _ => 0

/-- No RESET among the next `k` cycles. -/
def noResetIn (k : Nat) (s : State) : Bool :=
  match k with
  | 0 => true
  | k + 1 =>
    nextInstr s != some .reset &&
      match step s with
      | .next t => noResetIn k t
      | .fault _ => true
      | .refused _ => true

/-- The words of the current block in acquisition order (20_memory.md R49). -/
def currentBlock (s : State) : List Nat := (List.range (liveWords s)).map (bufWord s)

/-- What an observer at the ports sees now and in the next `k` cycles (00_scope.md R19). -/
def observe (k : Nat) (s : State) : List Outputs :=
  match k with
  | 0 => [outputs s]
  | k + 1 =>
    outputs s ::
      match step s with
      | .next t => observe k t
      | .fault _ => []
      | .refused _ => []

/-- `t` differs from `s` at most in what the spec leaves unspecified: E, and the words of BUF that hold no sample of the
current block (10_state.md R23, R28, R34). -/
def SameButHidden (s t : State) : Prop :=
  t = { s with buf := t.buf, bufEpoch := t.bufEpoch, energy := t.energy } ∧ ∀ i < liveWords s, bufWord t i = bufWord s i

end Sys2Proof.Machine
end

