-- ==== Sys2Proof/Certificates/Slice0/Obligations.lean ====
section
/-! DEFINITION. The statements for the provers. Each docstring names the rule it formalises. -/

open Sys2Proof Sys2Proof.Machine

/-! ## Reset -/

/-- 10_state.md R34: the values after reset, for a block elaborated with any configuration. What R34 leaves unspecified (BUF, E)
is not stated. -/
def Obligations.ResetStateHoldsTheSpecifiedValues : Prop :=
  ∀ c : Config, (State.resetWith c).cfg = c ∧ (State.resetWith c).state = .idle ∧ (State.resetWith c).cursor = 0 ∧
    (State.resetWith c).diag = .none ∧ (State.resetWith c).detValid = false ∧ (State.resetWith c).detHit = false ∧
    (State.resetWith c).detRow = 0 ∧ (State.resetWith c).detCol = 0 ∧ (State.resetWith c).detSym = 0x00 ∧
    tickEn (State.resetWith c) = false ∧ haltedO (State.resetWith c) = false

/-- The model's choice (log entry 20): State.reset is the reset state of a block with the default parameters, the ones of the
summary table of 00_scope.md section 3. -/
def Obligations.ResetStateHasTheDefaultParameters : Prop :=
  State.reset = State.resetWith State.reset.cfg ∧
    State.reset.cfg.sampleW = 16 ∧ State.reset.cfg.magW = 15 ∧ State.reset.cfg.wordW = 21 ∧ State.reset.cfg.fs = 8000 ∧
    State.reset.cfg.n = 1024 ∧ State.reset.cfg.t = 1024 ∧ State.reset.cfg.tSupportedLog = (List.range 16).map (· + 1) ∧
    State.reset.cfg.freq = ⟨697, 770, 852, 941, 1209, 1336, 1477⟩ ∧ State.reset.cfg.threshold = 1000 ∧
    State.reset.cfg.magFn = .reference ∧
    (gridAt State.reset.cfg.grid 0 0 = 0x31 ∧ gridAt State.reset.cfg.grid 0 1 = 0x32 ∧ gridAt State.reset.cfg.grid 0 2 = 0x33 ∧
      gridAt State.reset.cfg.grid 1 0 = 0x34 ∧ gridAt State.reset.cfg.grid 1 1 = 0x35 ∧ gridAt State.reset.cfg.grid 1 2 = 0x36 ∧
      gridAt State.reset.cfg.grid 2 0 = 0x37 ∧ gridAt State.reset.cfg.grid 2 1 = 0x38 ∧ gridAt State.reset.cfg.grid 2 2 = 0x39 ∧
      gridAt State.reset.cfg.grid 3 0 = 0x2A ∧ gridAt State.reset.cfg.grid 3 1 = 0x30 ∧ gridAt State.reset.cfg.grid 3 2 = 0x23)

/-- 70_reset_and_hazards.md R160: RESET completes in every state, with these values; every word with rst = 1 is a RESET. The
parameters and the model's inputs stay. -/
def Obligations.ResetRestoresEveryRegister : Prop :=
  (∀ s : State, ∃ t, exec .reset s = .next t ∧ t.state = .idle ∧ t.cursor = 0 ∧ t.diag = .none ∧ t.detValid = false ∧
      t.detHit = false ∧ t.detRow = 0 ∧ t.detCol = 0 ∧ t.detSym = 0x00 ∧ tickEn t = false ∧ haltedO t = false ∧
      t.cfg = s.cfg ∧ t.draw = s.draw ∧ t.trace = s.trace ∧ t.freeIndex = s.freeIndex) ∧
    ∀ sw w, w < 2 ^ wordWidth sw → rstBit sw w = true → decode sw w = .instr .reset

/-- The model's form of "BUF ... now unspecified" (70_reset_and_hazards.md R160, 10_state.md R23; log entry 4, the model's choice):
after RESET no word of BUF is listed as written and each reads as a free value of SAMPLE_W bits. The free value is drawn at the
step's own index, so another RESET draws others; the statement holds for every value of the field. -/
def Obligations.ResetLeavesEveryWordOfBufAFreeValue : Prop :=
  ∀ (s t : State) (i : Nat), exec .reset s = .next t →
    readWord t.buf i = none ∧ bufWord t i = Config.freeBufWord s.freeIndex i % 2 ^ s.cfg.sampleW ∧
      bufWord t i < 2 ^ s.cfg.sampleW

/-- 70_reset_and_hazards.md R161: a RESET cycle in PROCESSING, whatever its completion draw, performs no ENGINE_DONE and emits no
event; the next START begins at BUF[0]. -/
def Obligations.ResetAbortsTheAnalysis : Prop :=
  ∀ s : State, s.state = .processing → (nextInput s).word < 2 ^ wordWidth s.cfg.sampleW →
    rstBit s.cfg.sampleW (nextInput s).word = true →
    ∃ t, step s = .next t ∧ t.state = .idle ∧ t.detValid = false ∧ detPorts t = (false, 0, 0, 0x00) ∧ t.cursor = 0 ∧
      ∀ timerOk irqOk u, exec (.start timerOk irqOk) t = .next u → u.cursor = 0

/-! ## START -/

/-- 40_acquisition.md R81: a start bit in IDLE, with a tick or without, runs the checks in order; the first that fails halts the
block with its code, and if none fails the pipeline starts. Every other register stays. -/
def Obligations.StartChecksInOrderThenBuffers : Prop :=
  ∀ (s : State) (timerOk irqOk : Bool) (i : Instr), s.state = .idle → legalCodes s = true →
    (i = .start timerOk irqOk ∨ ∃ x, i = .startTick timerOk irqOk x) →
    ((¬∃ k ∈ s.cfg.tSupportedLog, s.cfg.t = 2 ^ k) →
      exec i s = .next { s with diag := .xformInit, state := .halted, detValid := false }) ∧
    ((∃ k ∈ s.cfg.tSupportedLog, s.cfg.t = 2 ^ k) → s.cfg.n ≠ s.cfg.t →
      exec i s = .next { s with diag := .sizeMismatch, state := .halted, detValid := false }) ∧
    ((∃ k ∈ s.cfg.tSupportedLog, s.cfg.t = 2 ^ k) → s.cfg.n = s.cfg.t → s.cfg.fs = 0 ∨ timerOk = false →
      exec i s = .next { s with diag := .timerInit, state := .halted, detValid := false }) ∧
    ((∃ k ∈ s.cfg.tSupportedLog, s.cfg.t = 2 ^ k) → s.cfg.n = s.cfg.t → s.cfg.fs ≠ 0 → timerOk = true → irqOk = false →
      exec i s = .next { s with diag := .irqReg, state := .halted, detValid := false }) ∧
    ((∃ k ∈ s.cfg.tSupportedLog, s.cfg.t = 2 ^ k) → s.cfg.n = s.cfg.t → s.cfg.fs ≠ 0 → timerOk = true → irqOk = true →
      exec i s = .next { s with state := .buffering, detValid := false })

/-- 60_exceptions.md R150 (with R141): the codes, and that DIAG changes only by RESET or by a START in IDLE, which records the first
failing check alone. -/
def Obligations.OnlyStartRecordsAFaultAndTheFirst : Prop :=
  (diagCode .xformInit = 1 ∧ diagCode .sizeMismatch = 2 ∧ diagCode .timerInit = 3 ∧ diagCode .irqReg = 4) ∧
    ∀ (i : Instr) (s t : State), exec i s = .next t → t.diag ≠ s.diag →
      i = .reset ∨ s.state = .idle ∧ t.state = .halted ∧ ∃ timerOk irqOk,
        (i = .start timerOk irqOk ∨ ∃ x, i = .startTick timerOk irqOk x) ∧
        ((¬∃ k ∈ s.cfg.tSupportedLog, s.cfg.t = 2 ^ k) ∧ t.diag = .xformInit ∨
          (∃ k ∈ s.cfg.tSupportedLog, s.cfg.t = 2 ^ k) ∧
            (s.cfg.n ≠ s.cfg.t ∧ t.diag = .sizeMismatch ∨
              s.cfg.n = s.cfg.t ∧
                ((s.cfg.fs = 0 ∨ timerOk = false) ∧ t.diag = .timerInit ∨
                  (s.cfg.fs ≠ 0 ∧ timerOk = true) ∧ irqOk = false ∧ t.diag = .irqReg)))

/-- 60_exceptions.md R144: taking the startup fault. DIAG has the code 1 to 4, STATE is HALTED, tick_en stays 0, halted_o becomes
1; nothing else changes but the strobe. -/
def Obligations.StartupFaultEntryIsPrecise : Prop :=
  ∀ (s : State) (timerOk irqOk : Bool) (cause : StartupCause) (i : Instr), s.state = .idle → legalCodes s = true →
    startupCheck s.cfg timerOk irqOk = some cause →
    (i = .start timerOk irqOk ∨ ∃ x, i = .startTick timerOk irqOk x) →
    ∃ t, exec i s = .next t ∧ t = { s with diag := t.diag, state := .halted, detValid := false } ∧
      t.diag = diagOf cause ∧ 1 ≤ (diagCode t.diag).toNat ∧ (diagCode t.diag).toNat ≤ 4 ∧ tickEn s = false ∧ tickEn t = false ∧
      haltedO t = true

/-- 40_acquisition.md R82: outside IDLE the start bit has no effect: the cycle is what its tick bit and STATE select. -/
def Obligations.StartHasNoEffectOutsideIdle : Prop :=
  (∀ (s : State) (timerOk irqOk : Bool) (x : Int), s.state ≠ .idle →
      exec (.start timerOk irqOk) s = exec .nop s ∧ exec (.startTick timerOk irqOk x) s = exec (.tick x) s) ∧
    ∀ (i : Instr) (s t : State), exec i s = .next t → s.state = .halted → t.state ≠ .halted → i = .reset

/-- 30_encoding.md R65: START_TICK in IDLE is START; the tick is dropped, so BUF and CURSOR stay. -/
def Obligations.StartTickInIdleDropsTheTick : Prop :=
  ∀ (s : State) (timerOk irqOk : Bool) (x : Int), s.state = .idle → legalCodes s = true →
    ∃ t, exec (.startTick timerOk irqOk x) s = .next t ∧ exec (.start timerOk irqOk) s = .next t ∧ t.buf = s.buf ∧
      t.cursor = s.cursor

/-- 60_exceptions.md R145: in HALTED every operation but RESET does nothing, and RESET returns to IDLE with DIAG = 0. -/
def Obligations.HaltedIsLeftOnlyByReset : Prop :=
  ∀ s : State, s.state = .halted → legalCodes s = true →
    (∀ timerOk irqOk x, exec (.start timerOk irqOk) s = .next { s with detValid := false } ∧
      exec (.startTick timerOk irqOk x) s = .next { s with detValid := false } ∧
      exec (.tick x) s = .next { s with detValid := false } ∧ exec .nop s = .next { s with detValid := false }) ∧
    (∃ t, exec .reset s = .next t ∧ t.state = .idle ∧ t.diag = .none) ∧
    ∀ i t, exec i s = .next t → t.state ≠ .halted → i = .reset

/-! ## NOP and TICK -/

/-- 40_acquisition.md R80: NOP, and every word whose start or tick the state ignores, clears the strobe and keeps every other
register. -/
def Obligations.NopClearsOnlyTheStrobe : Prop :=
  ∀ s : State, legalCodes s = true →
    (s.state ≠ .processing → exec .nop s = .next { s with detValid := false }) ∧
    (∀ x, s.state = .idle ∨ s.state = .halted → exec (.tick x) s = .next { s with detValid := false }) ∧
    (∀ timerOk irqOk, s.state = .buffering ∨ s.state = .halted →
      exec (.start timerOk irqOk) s = .next { s with detValid := false }) ∧
    ∀ timerOk irqOk x, s.state = .halted → exec (.startTick timerOk irqOk x) s = .next { s with detValid := false }

/-- 40_acquisition.md R86: a tick outside BUFFERING contributes nothing: the cycle is the NOP, the START or the engine step that
it would be without the tick, and BUF and CURSOR stay. -/
def Obligations.DroppedTickContributesNothing : Prop :=
  ∀ (s : State) (x : Int), s.state ≠ .buffering →
    exec (.tick x) s = exec .nop s ∧
    (∀ timerOk irqOk, exec (.startTick timerOk irqOk x) s = exec (.start timerOk irqOk) s) ∧
    ∀ t, exec (.tick x) s = .next t → t.buf = s.buf ∧ t.cursor = s.cursor

/-- 40_acquisition.md R84: an accepted tick stores the sample at CURSOR and nowhere else, moves CURSOR on or, at N - 1, back to 0
and into PROCESSING, and clears the strobe; a start bit is ignored. A well-formed sample is stored unchanged: the engine reads it
back. -/
def Obligations.AcceptedTickStoresTheSampleAtTheCursor : Prop :=
  ∀ (s : State) (x : Int), s.state = .buffering → legalCodes s = true → s.cursor < s.cfg.n → 1 ≤ s.cfg.sampleW →
    ∃ t, exec (.tick x) s = .next t ∧ (∀ timerOk irqOk, exec (.startTick timerOk irqOk x) s = .next t) ∧
      t = { s with buf := t.buf, cursor := t.cursor, state := t.state, detValid := false } ∧
      bufWord t s.cursor = toPattern s.cfg.sampleW x ∧
      (SampleInRange s.cfg.sampleW x → readSample t s.cursor = x) ∧
      (∀ j, j ≠ s.cursor → bufWord t j = bufWord s j) ∧
      (s.cursor = s.cfg.n - 1 → t.cursor = 0 ∧ t.state = .processing) ∧
      (s.cursor ≠ s.cfg.n - 1 → t.cursor = s.cursor + 1 ∧ t.state = .buffering)

/-- 30_encoding.md R63: a sample is a two's-complement integer of SAMPLE_W bits; its pattern read back is the sample, and a
sample_in field read as a sample and stored is that field. -/
def Obligations.SamplesAreStoredUnchanged : Prop :=
  ∀ sw, 1 ≤ sw →
    (∀ x, SampleInRange sw x → toPattern sw x < 2 ^ sw ∧ sext sw (toPattern sw x) = x) ∧
    ∀ w, SampleInRange sw (sext sw (sampleField sw w)) ∧ toPattern sw (sext sw (sampleField sw w)) = sampleField sw w

/-- 40_acquisition.md R85: the filling write hands the buffer over atomically, and is the only transition from BUFFERING to
PROCESSING. -/
def Obligations.OnlyTheFillingWriteEntersProcessing : Prop :=
  ∀ (i : Instr) (s t : State), exec i s = .next t → s.state = .buffering → t.state = .processing →
    s.cursor = s.cfg.n - 1 ∧ t.cursor = 0 ∧ tickEn s = true ∧ tickEn t = false ∧ wrGrant s = true ∧ rdGrant t = true ∧
      wrGrant t = false ∧ ∃ x, (i = .tick x ∨ ∃ timerOk irqOk, i = .startTick timerOk irqOk x) ∧
        bufWord t (s.cfg.n - 1) = toPattern s.cfg.sampleW x

/-- The model's stop for a CURSOR outside its range (20_memory.md R40, R47; log entry 14, the model's choice). -/
def Obligations.WriteOutsideTheBufferStops : Prop :=
  ∀ (s : State) (x : Int) (timerOk irqOk : Bool), s.state = .buffering → legalCodes s = true → s.cfg.n ≤ s.cursor →
    exec (.tick x) s = .fault .bufIndexOutOfRange ∧ exec (.startTick timerOk irqOk x) s = .fault .bufIndexOutOfRange

/-! ## Encoding and the step -/

/-- 30_encoding.md R62 to R64, R67, R71: every well-formed operation but ENGINE_DONE has a word of WW bits, which decodes to it with
every operand; what a word decodes to is well formed and never ENGINE_DONE. -/
def Obligations.DecodeInvertsEncode : Prop :=
  ∀ sw, 1 ≤ sw →
    (∀ i : Instr, i.WellFormed sw → i ≠ .engineDone →
      ∃ w, encode sw i = some w ∧ w < 2 ^ wordWidth sw ∧ decode sw w = .instr i) ∧
    encode sw .engineDone = none ∧
    ∀ w i, decode sw w = .instr i → i.WellFormed sw ∧ i ≠ .engineDone

/-- 30_encoding.md R64: rst above start above tick select the row, for every input word. -/
def Obligations.RstAboveStartAboveTick : Prop :=
  ∀ sw w, w < 2 ^ wordWidth sw →
    (rstBit sw w = true → decode sw w = .instr .reset) ∧
    (rstBit sw w = false → startBit sw w = true → tickBit sw w = false →
      decode sw w = .instr (.start (timerOkBit sw w) (irqOkBit sw w))) ∧
    (rstBit sw w = false → startBit sw w = true → tickBit sw w = true →
      decode sw w = .instr (.startTick (timerOkBit sw w) (irqOkBit sw w) (sext sw (sampleField sw w)))) ∧
    (rstBit sw w = false → startBit sw w = false → tickBit sw w = true →
      decode sw w = .instr (.tick (sext sw (sampleField sw w)))) ∧
    (rstBit sw w = false → startBit sw w = false → tickBit sw w = false → decode sw w = .instr .nop)

/-- Words of 95_test_vectors.md section 2.1, written out bit by bit from 30_encoding.md R62. -/
def Obligations.TraceWordsDecodeToTheirOperations : Prop :=
  decode 16 0b100110000000000000000 = .instr .reset ∧ decode 16 0b010110000000000000000 = .instr (.start true true) ∧
    decode 16 0b010010000000000000000 = .instr (.start false true) ∧
    decode 16 0b010100000000000000000 = .instr (.start true false) ∧
    decode 16 0b011110000000000001001 = .instr (.startTick true true 9) ∧
    decode 16 0b001111111111001110000 = .instr (.tick (-400)) ∧ decode 16 0b001111000000000000000 = .instr (.tick (-32768)) ∧
    decode 16 0b001110111111111111111 = .instr (.tick 32767) ∧ decode 16 0b000110000000000000000 = .instr .nop ∧
    decode 16 0x1FFFFF = .instr .reset

/-- 00_scope.md R17, 30_encoding.md R62: one step samples the inputs of its cycle and runs the operation their word decodes to.
That the inputs are the head of the field `trace`, that past its end a free word of WW bits stands, that `freeIndex` goes up by one
(log entry 9) and that the field `draw` presents the completion draw (log entry 8) are the model's choices. -/
def Obligations.StepRunsTheDecodedOperation : Prop :=
  (∀ (s : State) (i : Instr), decode s.cfg.sampleW (nextInput s).word = .instr i →
      step s = exec i { s with draw := (nextInput s).done, trace := s.trace.tail, freeIndex := s.freeIndex + 1 }) ∧
    (∀ (s : State) c rest, s.trace = c :: rest → nextInput s = c) ∧
    ∀ s : State, s.trace = [] → (nextInput s).word < 2 ^ wordWidth s.cfg.sampleW

/-- The model's choice (log entry 9): `State.withFetchWord` stands for the environment driving a word in the next cycle. The number it
places is the word of the very next step, and nothing but the field `trace` changes. -/
def Obligations.PlacedWordIsTheNextWord : Prop :=
  ∀ (s : State) (nbits w : Nat), w < 2 ^ nbits → w < 2 ^ wordWidth s.cfg.sampleW →
    (nextInput (s.withFetchWord nbits w)).word = w ∧
      s.withFetchWord nbits w = { s with trace := (s.withFetchWord nbits w).trace } ∧
      (s.withFetchWord nbits w).trace.tail = s.trace.tail

/-- A number of more than WW bits is no input word (30_encoding.md R62, R73; log entry 17, the model's choice): the step refuses
it by name. -/
def Obligations.NumbersWiderThanAWordAreRefused : Prop :=
  ∀ s : State, 2 ^ wordWidth s.cfg.sampleW ≤ (nextInput s).word → step s = .refused .notInputWord

/-- 30_encoding.md R72: the pseudo-operations stand for these lines. -/
def Obligations.PseudoOperationsExpand : Prop :=
  (∀ xs, expandItem (.ticks xs) = xs.map (fun x => (.tick x, false))) ∧
    (∀ k, expandItem (.idle k) = List.replicate k (.nop, false)) ∧ expandItem .waitDone = [(.nop, true)] ∧
    ∀ k, 1 ≤ k → (expandItem (.wait k)).length = k ∧
      ∀ j, j < k → (expandItem (.wait k))[j]? = some (.nop, decide (j = k - 1))

/-! ## Engine and magnitudes -/

/-- 41_spectral.md R101: the bin is FREQ / (FS / T) rounded half up, in its exact integer form; one for each target frequency; and
the bins of the default configuration. -/
def Obligations.BinIndexRoundsHalfUp : Prop :=
  (∀ fs t f : Nat, 0 < fs → 0 < t → (binIndex fs t f : Int) = ⌊(f : ℚ) / ((fs : ℚ) / (t : ℚ)) + 1 / 2⌋) ∧
    (∀ fs t f : Nat, 0 < fs → binIndex fs t f = (2 * f * t + fs) / (2 * fs)) ∧
    (∀ (c : Config) (i : Fin 7), tone (bins c) i = binIndex c.fs c.t (tone c.freq i)) ∧
    bins Config.default = ⟨89, 99, 109, 120, 155, 171, 189⟩

/-- 41_spectral.md R107 (with R102): each energy is the magnitude at its bin, or 0 where the bin is not below T/2; such a
frequency is never a candidate. -/
def Obligations.EnergyIsTheMagnitudeAtTheBin : Prop :=
  ∀ (c : Config) (x : List Int) (i : Fin 7),
    (binIndex c.fs c.t (tone c.freq i) < c.t / 2 →
      tone (energies c x) i = magFn c x (binIndex c.fs c.t (tone c.freq i))) ∧
    (c.t / 2 ≤ binIndex c.fs c.t (tone c.freq i) →
      tone (energies c x) i = 0 ∧ ¬c.threshold < tone (energies c x) i)

/-- 41_spectral.md R111: entries with the same bin have equal energies, and within a group the later of two such entries is never
the candidate. -/
def Obligations.CoincidingBinsSelectTheLowerIndex : Prop :=
  ∀ (c : Config) (x : List Int),
    (∀ i j : Fin 7, tone (bins c) i = tone (bins c) j → tone (energies c x) i = tone (energies c x) j) ∧
    (∀ i j : Fin 4, i < j → rowGroup (bins c) i = rowGroup (bins c) j →
      pickGroup (rowGroup (energies c x)) c.threshold ≠ some j) ∧
    ∀ i j : Fin 3, i < j → colGroup (bins c) i = colGroup (bins c) j →
      pickGroup (colGroup (energies c x)) c.threshold ≠ some j

/-- 41_spectral.md R103, R105: the exact integer computation of MAG_REF is min(MAG_MAX, floor(|X[k]| / T)), with X[k] the discrete
Fourier transform over the complex numbers, for every transform size T = 2^m, and |X[k]| / T never exceeds 2^(SAMPLE_W-1). -/
def Obligations.MagRefIsTheFlooredModulus : Prop :=
  ∀ (sw m : Nat) (x : List Int) (k : Nat), x.length = 2 ^ m →
    magRef sw m x k =
      min (2 ^ (sw - 1) - 1)
        ⌊‖∑ n ∈ Finset.range (2 ^ m),
          ((x.getD n 0 : Int) : ℂ) * Complex.exp (-(2 * Real.pi * Complex.I * k * n / (2 ^ m : ℕ)))‖ / (2 ^ m : ℕ)⌋₊ ∧
    ((∀ v ∈ x, SampleInRange sw v) →
      ‖∑ n ∈ Finset.range (2 ^ m),
        ((x.getD n 0 : Int) : ℂ) * Complex.exp (-(2 * Real.pi * Complex.I * k * n / (2 ^ m : ℕ)))‖ / (2 ^ m : ℕ) ≤
        2 ^ (sw - 1))

/-- 41_spectral.md R104: range (M2), silence (M4), saturation (M3) and bin order (M5), for every MAG_FN of the model. MAG_REF has M3
and M5 at the scale 1/T and exactly; a conforming implementation has them at its own scale num/den and to within its own error
err. That an implementation has a scale and an error of this form is the model's choice (log entry 11). M1 is that the model's
magFn is a function of these arguments. -/
def Obligations.EveryMagFnHasTheNamedProperties : Prop :=
  ∀ (c : Config) (m : Nat) (x : List Int) (k : Nat), c.t = 2 ^ m → x.length = c.t →
    magFn c x k ≤ c.magMax ∧ ((∀ v ∈ x, v = 0) → magFn c x k = 0) ∧
    ∀ num den err : Nat, 0 < den →
      (c.magFn = .reference ∧ num = 1 ∧ den = c.t ∧ err = 0 ∨ ∃ id, c.magFn = .conforming id num den err) →
      ((c.magMax : ℝ) <
        ‖∑ n ∈ Finset.range (2 ^ m),
          ((x.getD n 0 : Int) : ℂ) * Complex.exp (-(2 * Real.pi * Complex.I * k * n / (2 ^ m : ℕ)))‖ * num / den →
        magFn c x k = c.magMax) ∧
      magFn c x k ≤
        min c.magMax
          ⌊‖∑ n ∈ Finset.range (2 ^ m),
            ((x.getD n 0 : Int) : ℂ) * Complex.exp (-(2 * Real.pi * Complex.I * k * n / (2 ^ m : ℕ)))‖ * num / den⌋₊ + err ∧
      min c.magMax
          ⌊‖∑ n ∈ Finset.range (2 ^ m),
            ((x.getD n 0 : Int) : ℂ) * Complex.exp (-(2 * Real.pi * Complex.I * k * n / (2 ^ m : ℕ)))‖ * num / den⌋₊ ≤
        magFn c x k + err

/-- 41_spectral.md R109: in PROCESSING every word with rst = 0 is an engine step. A draw of 0 changes nothing but the strobe and the
hidden E; a draw of 1 performs ENGINE_DONE. -/
def Obligations.EngineStepFollowsTheDraw : Prop :=
  ∀ s : State, s.state = .processing → legalCodes s = true → configAdmitted s.cfg = true →
    ∀ i : Instr, i ≠ .reset → i ≠ .engineDone →
      (s.draw = true → exec i s = exec .engineDone s) ∧
      (s.draw = false → ∃ t, exec i s = .next t ∧ t = { s with detValid := false, energy := t.energy })

/-- 42_classify.md R125: ENGINE_DONE latches the result of the block in BUF, raises the strobe and returns to BUFFERING with
tick_en = 1. CURSOR, DIAG, BUF and the parameters stay. -/
def Obligations.EngineDoneLatchesTheResult : Prop :=
  ∀ (s : State) (x : List Int), s.state = .processing → legalCodes s = true → configAdmitted s.cfg = true →
    x = readBlock s s.cfg.t →
    ∃ t, exec .engineDone s = .next t ∧ t.detValid = true ∧ t.state = .buffering ∧ tickEn t = true ∧
      (∀ r c, pickGroup (rowGroup (energies s.cfg x)) s.cfg.threshold = some r →
        pickGroup (colGroup (energies s.cfg x)) s.cfg.threshold = some c →
        detPorts t = (true, BitVec.ofNat 2 r.val, BitVec.ofNat 2 c.val, gridAt s.cfg.grid r c)) ∧
      (pickGroup (rowGroup (energies s.cfg x)) s.cfg.threshold = none ∨
          pickGroup (colGroup (energies s.cfg x)) s.cfg.threshold = none → detPorts t = (false, 0, 0, 0x00)) ∧
      t.cfg = s.cfg ∧ t.cursor = s.cursor ∧ t.diag = s.diag ∧ t.buf = s.buf ∧ (∀ i, bufWord t i = bufWord s i) ∧ t.draw = s.draw ∧ t.trace = s.trace ∧
      t.freeIndex = s.freeIndex

/-- 41_spectral.md R109, R112, 42_classify.md R129, 00_scope.md R14: whatever the words of the waiting cycles, an analysis lasts to
the first draw of 1 and then latches DETECT of the block that was in BUF when it began; the draws decide only when. -/
def Obligations.AnalysisEndsAtTheDrawWithTheBlocksResult : Prop :=
  ∀ (s : State) (waits : List Nat) (last : Nat), Invariants s → s.state = .processing →
    s.trace = waits.map (fun w => ⟨w, false⟩) ++ [⟨last, true⟩] →
    (∀ w ∈ last :: waits, rstBit s.cfg.sampleW w = false) →
    (∀ j ≤ waits.length, ∃ u, runCycles j s = .next u ∧ u.state = .processing) ∧
    ∃ t, runCycles (waits.length + 1) s = .next t ∧ t.state = .buffering ∧ t.detValid = true ∧
      detPorts t = detPorts (emit (classify s.cfg (energies s.cfg (readBlock s s.cfg.t))) s) ∧
      (∀ i, bufWord t i = bufWord s i) ∧ t.cursor = 0

/-- ENGINE_DONE is an event of PROCESSING only (30_encoding.md R67, 42_classify.md R125; log entry 16, the model's choice): in any
other legal state the model has no such event. -/
def Obligations.EngineDoneOutsideProcessingIsRefused : Prop :=
  ∀ s : State, legalCodes s = true → s.state ≠ .processing → exec .engineDone s = .refused .noEngineEvent

/-- The model's stop in PROCESSING (log entry 15, the model's choice): the engine runs only in a configuration START admits
(41_spectral.md R100); in such a one every operation answers a next state, whatever BUF holds (10_state.md R23). -/
def Obligations.EngineStopsOnlyOnAnUnadmittedConfiguration : Prop :=
  ∀ (s : State) (i : Instr), s.state = .processing → legalCodes s = true → i ≠ .reset →
    (configAdmitted s.cfg = false → exec i s = .fault .engineConfiguration) ∧
    (configAdmitted s.cfg = true → ∃ t, exec i s = .next t)

/-- 93_implementation_defined.md U6 (40_acquisition.md R89): a reserved STATE or DIAG code has no step but RESET. -/
def Obligations.ReservedCodesHaveNoStepButReset : Prop :=
  ∀ (s : State) (i : Instr), legalCodes s = false → i ≠ .reset → exec i s = .fault .reservedCode

/-! ## Classifier -/

/-- 42_classify.md R121: PickGroup yields the first maximum, if it is strictly above the threshold, for a group of any size. -/
def Obligations.PickGroupIsTheFirstStrictMaximum : Prop :=
  ∀ (m : Nat) (e : Fin m → Nat) (th : Nat),
    (∀ j, pickGroup e th = some j ↔ th < e j ∧ (∀ i, i < j → e i < e j) ∧ ∀ i, j < i → e i ≤ e j) ∧
      (pickGroup e th = none ↔ ∀ j, e j ≤ th)

/-- 42_classify.md R122: the comparator trees give the result of PickGroup for every input. -/
def Obligations.ComparatorTreesEqualPickGroup : Prop :=
  (∀ (e : Fin 4 → Nat) (th : Nat), treeRows e th = pickGroup e th) ∧
    ∀ (e : Fin 3 → Nat) (th : Nat), treeCols e th = pickGroup e th

/-- 42_classify.md R123, R124: a symbol stands exactly when both groups yield a candidate; otherwise "no tone". -/
def Obligations.SymbolNeedsBothGroups : Prop :=
  ∀ (c : Config) (e : Tones Nat),
    (∀ r k sym, classify c e = .hit r k sym ↔
      pickGroup (rowGroup e) c.threshold = some r ∧ pickGroup (colGroup e) c.threshold = some k ∧
        sym = gridAt c.grid r k) ∧
    (classify c e = .noTone ↔
      pickGroup (rowGroup e) c.threshold = none ∨ pickGroup (colGroup e) c.threshold = none)

/-- 42_classify.md R130: the five laws of CLASSIFY. -/
def Obligations.ClassifierLaws : Prop :=
  ∀ (c : Config) (e : Tones Nat),
    (∀ r k, c.threshold < rowGroup e r → c.threshold < colGroup e k →
      (∀ j, j ≠ r → rowGroup e j ≤ c.threshold) → (∀ j, j ≠ k → colGroup e j ≤ c.threshold) →
      classify c e = .hit r k (gridAt c.grid r k)) ∧
    ((∀ i, tone e i ≤ c.threshold) → classify c e = .noTone) ∧
    (∀ r, rowGroup e r = c.threshold → pickGroup (rowGroup e) c.threshold ≠ some r) ∧
    (∀ k, colGroup e k = c.threshold → pickGroup (colGroup e) c.threshold ≠ some k) ∧
    (∀ r, rowGroup e r = c.threshold + 1 → (∀ j, j ≠ r → rowGroup e j ≤ c.threshold) →
      pickGroup (rowGroup e) c.threshold = some r) ∧
    (∀ k, colGroup e k = c.threshold + 1 → (∀ j, j ≠ k → colGroup e j ≤ c.threshold) →
      pickGroup (colGroup e) c.threshold = some k) ∧
    (∀ a b, a < b → c.threshold < rowGroup e a → rowGroup e a = rowGroup e b → (∀ j, rowGroup e j ≤ rowGroup e a) →
      (∀ j, j < a → rowGroup e j < rowGroup e a) → pickGroup (rowGroup e) c.threshold = some a) ∧
    (∀ a b, a < b → c.threshold < colGroup e a → colGroup e a = colGroup e b → (∀ j, colGroup e j ≤ colGroup e a) →
      (∀ j, j < a → colGroup e j < colGroup e a) → pickGroup (colGroup e) c.threshold = some a) ∧
    ((∃ r, c.threshold < rowGroup e r) → (∀ k, colGroup e k ≤ c.threshold) → classify c e = .noTone) ∧
    ((∃ k, c.threshold < colGroup e k) → (∀ r, rowGroup e r ≤ c.threshold) → classify c e = .noTone)

/-! ## Flags, ports and the whole machine -/

/-- 10_state.md R26, R27, 20_memory.md R44: the derived outputs and the arbiter's grants follow STATE; the grants are never both
given. -/
def Obligations.DerivedOutputsFollowState : Prop :=
  ∀ s : State, (tickEn s = true ↔ s.state = .buffering) ∧ (haltedO s = true ↔ s.state = .halted) ∧
    (wrGrant s = true ↔ s.state = .buffering) ∧ (rdGrant s = true ↔ s.state = .processing) ∧
    ¬(wrGrant s = true ∧ rdGrant s = true)

/-- 10_state.md R20, R33, 30_encoding.md R69, R70: what the ports carry. -/
def Obligations.PortsCarryTheRegisters : Prop :=
  (phaseCode .idle = 0 ∧ phaseCode .buffering = 1 ∧ phaseCode .processing = 2 ∧ phaseCode .printing = 3 ∧
      phaseCode .halted = 4 ∧ diagCode .none = 0) ∧
    ∀ s : State, (outputs s).stateO = phaseCode s.state ∧ (outputs s).cursorO = s.cursor ∧
      (outputs s).diagO = diagCode s.diag ∧ (outputs s).haltedO = haltedO s ∧ (outputs s).tickEn = tickEn s ∧
      (outputs s).detValid = s.detValid ∧ (outputs s).detHit = s.detHit ∧ (outputs s).detRow = s.detRow ∧
      (outputs s).detCol = s.detCol ∧ (outputs s).detSym = s.detSym

/-- 10_state.md R36: the invariants hold after reset, in every configuration in its domain and in the default one. -/
def Obligations.ResetMeetsTheInvariants : Prop :=
  (∀ c : Config, c.WellFormed → Invariants (State.resetWith c)) ∧ Invariants State.reset

/-- 10_state.md R36: every step from a state that meets the invariants leads to one that does. -/
def Obligations.EveryStepKeepsTheInvariants : Prop :=
  ∀ s t : State, Invariants s → step s = .next t → Invariants t

/-- 30_encoding.md R66, 60_exceptions.md R142: from a state that meets the invariants the machine runs on for ever, whatever the
inputs: no word traps and nothing stops. -/
def Obligations.RunsNeverStop : Prop :=
  ∀ (s : State) (k : Nat), Invariants s → ∃ t, runCycles k s = .next t

/-- 40_acquisition.md R88: the complete transition relation of STATE, operation by operation. -/
def Obligations.StateFollowsTheTransitionTable : Prop :=
  ∀ (i : Instr) (s t : State), exec i s = .next t →
    t.state = s.state ∧ i ≠ .reset ∨
    i = .reset ∧ t.state = .idle ∨
    s.state = .idle ∧ t.state = .buffering ∧ (∃ timerOk irqOk,
      (i = .start timerOk irqOk ∨ ∃ x, i = .startTick timerOk irqOk x) ∧ startupCheck s.cfg timerOk irqOk = none) ∨
    s.state = .idle ∧ t.state = .halted ∧ (∃ timerOk irqOk,
      (i = .start timerOk irqOk ∨ ∃ x, i = .startTick timerOk irqOk x) ∧ startupCheck s.cfg timerOk irqOk ≠ none) ∨
    s.state = .buffering ∧ t.state = .processing ∧ s.cursor = s.cfg.n - 1 ∧
      (∃ x, i = .tick x ∨ ∃ timerOk irqOk, i = .startTick timerOk irqOk x) ∨
    s.state = .processing ∧ t.state = .buffering ∧ (i = .engineDone ∨ s.draw = true)

/-- 40_acquisition.md R93, 42_classify.md R127: the strobe is 1 after a cycle exactly when that cycle performed ENGINE_DONE. -/
def Obligations.StrobeMarksExactlyTheCompletions : Prop :=
  ∀ (i : Instr) (s t : State), exec i s = .next t →
    (t.detValid = true ↔ s.state = .processing ∧ i ≠ .reset ∧ (i = .engineDone ∨ s.draw = true))

/-- 10_state.md R25, 42_classify.md R128: the latched result changes only by ENGINE_DONE and RESET, and holds otherwise. -/
def Obligations.LatchedResultHoldsBetweenCompletions : Prop :=
  ∀ (i : Instr) (s t : State), exec i s = .next t → detPorts t ≠ detPorts s →
    i = .reset ∨ s.state = .processing ∧ (i = .engineDone ∨ s.draw = true)

/-- 10_state.md R21: CURSOR is written only by an accepted tick (one on, or to 0 when the buffer becomes full) and by RESET. -/
def Obligations.CursorMovesOnlyByAcceptedTicks : Prop :=
  ∀ (i : Instr) (s t : State), exec i s = .next t → t.cursor ≠ s.cursor →
    i = .reset ∧ t.cursor = 0 ∨
    s.state = .buffering ∧ (∃ x, i = .tick x ∨ ∃ timerOk irqOk, i = .startTick timerOk irqOk x) ∧
      (s.cursor = s.cfg.n - 1 ∧ t.cursor = 0 ∨ s.cursor < s.cfg.n - 1 ∧ t.cursor = s.cursor + 1)

/-- 20_memory.md R42, R44, R51: a word of BUF changes only by RESET (unspecified) or by the accepted tick of a cycle with the write
grant, at CURSOR. -/
def Obligations.BufChangesOnlyUnderTheWriteGrant : Prop :=
  ∀ (i : Instr) (s t : State) (j : Nat), exec i s = .next t → bufWord t j ≠ bufWord s j →
    i = .reset ∨ wrGrant s = true ∧ rdGrant s = false ∧ j = s.cursor ∧
      ∃ x, (i = .tick x ∨ ∃ timerOk irqOk, i = .startTick timerOk irqOk x) ∧
        bufWord t j = toPattern s.cfg.sampleW x

/-- 70_reset_and_hazards.md R168: no operation and no step changes the configuration. -/
def Obligations.ConfigurationNeverChanges : Prop :=
  (∀ (i : Instr) (s t : State), exec i s = .next t → t.cfg = s.cfg) ∧
    ∀ (s t : State) (k : Nat), runCycles k s = .next t → t.cfg = s.cfg

/-- 40_acquisition.md R90: without RESET, from a state with CURSOR = 0, the number of buffer-full transitions in any number of
cycles is the number of accepted ticks divided by N. -/
def Obligations.BlockCountLaw : Prop :=
  ∀ (s : State) (k : Nat), Invariants s → s.cursor = 0 → noResetIn k s = true → fullsIn k s = acceptedIn k s / s.cfg.n

/-- 20_memory.md R48, R49: each accepted tick appends its sample to the current block, nothing else changes the block, and a block
begins empty. -/
def Obligations.BlockIsTheSequenceOfAcceptedSamples : Prop :=
  ∀ s t : State, Invariants s → step s = .next t →
    (∀ x, acceptedSample s = some x → currentBlock t = currentBlock s ++ [toPattern s.cfg.sampleW x]) ∧
    (acceptedSample s = none → t.state = s.state → currentBlock t = currentBlock s) ∧
    (t.state = .buffering → s.state ≠ .buffering → currentBlock t = [])

/-- 10_state.md R23, R28, R34, 20_memory.md R48: what the spec leaves unspecified, E and the words of BUF outside the current block
(free values or left over), never shows at a port, now or later. -/
def Obligations.UnspecifiedContentsNeverShow : Prop :=
  ∀ (s t : State) (k : Nat), Invariants s → SameButHidden s t → observe k s = observe k t
end

