-- ==== Sys2Proof/Laws/Classify.lean ====
section
/-! SUPPORT. The scan of PickGroup over any list of indices (42_classify.md R121). -/

namespace Sys2Proof.Laws

open Sys2Proof.Machine

variable {m : Nat} (e : Fin m → Nat) (th : Nat)

/-- The scan of PickGroup over the indices of `l`, from a best index and the energy it has to beat. -/
def scan (l : List (Fin m)) (best : Option (Fin m) × Nat) : Option (Fin m) × Nat :=
  l.foldl (fun (best : Option (Fin m) × Nat) j => if best.2 < e j then (some j, e j) else best) best

theorem pickGroup_eq_scan : pickGroup e th = (scan e (List.finRange m) (none, th)).1 := rfl

theorem scan_nil (best : Option (Fin m) × Nat) : scan e [] best = best := rfl

theorem scan_cons (j : Fin m) (l : List (Fin m)) (best : Option (Fin m) × Nat) :
    scan e (j :: l) best = scan e l (if best.2 < e j then (some j, e j) else best) := rfl

theorem scan_append (l l' : List (Fin m)) (best : Option (Fin m) × Nat) :
    scan e (l ++ l') best = scan e l' (scan e l best) := List.foldl_append

/-- A scan in which no entry beats the best keeps it. -/
theorem scan_keep (l : List (Fin m)) (best : Option (Fin m) × Nat) (h : ∀ j ∈ l, e j ≤ best.2) : scan e l best = best := by
  induction l with
  | nil => rfl
  | cons j l ih =>
    rw [scan_cons, if_neg (Nat.not_lt.mpr (h j List.mem_cons_self))]
    exact ih (fun k hk => h k (List.mem_cons_of_mem _ hk))

/-- The energy to beat never falls, bounds every entry scanned, and is the best index's own or the first. -/
theorem scan_spec (l : List (Fin m)) (best : Option (Fin m) × Nat) :
    best.2 ≤ (scan e l best).2 ∧ (∀ j ∈ l, e j ≤ (scan e l best).2) ∧
      (scan e l best = best ∨ ∃ j ∈ l, scan e l best = (some j, e j) ∧ best.2 < e j) := by
  induction l generalizing best with
  | nil => simp [scan_nil]
  | cons j l ih =>
    rw [scan_cons]
    by_cases h : best.2 < e j
    · rw [if_pos h]
      obtain ⟨h1, h2, h3⟩ := ih (some j, e j)
      refine ⟨by simp only at h1; omega, ?_, .inr ?_⟩
      · intro k hk
        rcases List.mem_cons.mp hk with rfl | hk
        · exact h1
        · exact h2 k hk
      · rcases h3 with h3 | ⟨k, hk, h3, hlt⟩
        · exact ⟨j, List.mem_cons_self, h3, h⟩
        · exact ⟨k, List.mem_cons_of_mem _ hk, h3, by simp only at hlt; omega⟩
    · rw [if_neg h]
      obtain ⟨h1, h2, h3⟩ := ih best
      refine ⟨h1, ?_, ?_⟩
      · intro k hk
        rcases List.mem_cons.mp hk with rfl | hk
        · omega
        · exact h2 k hk
      · rcases h3 with h3 | ⟨k, hk, h3⟩
        · exact .inl h3
        · exact .inr ⟨k, List.mem_cons_of_mem _ hk, h3⟩

end Sys2Proof.Laws
end

