-- ==== Sys2Proof/Laws/Encoding.lean ====
section
/-! SUPPORT. The fields of a packed input word (30_encoding.md R62), and two's complement (R63). -/

namespace Sys2Proof.Laws

/-- The five control bits of a word, as a number. -/
def controlBits (rst start tick timerOk irqOk : Bool) : Nat :=
  16 * rst.toNat + 8 * start.toNat + 4 * tick.toNat + 2 * timerOk.toNat + irqOk.toNat

theorem pack_eq (sw : Nat) (rst start tick timerOk irqOk : Bool) (v : Nat) :
    pack sw rst start tick timerOk irqOk v = 2 ^ sw * controlBits rst start tick timerOk irqOk + v := by
  simp only [pack, controlBits, pow_add]; ring

theorem controlBits_lt (rst start tick timerOk irqOk : Bool) : controlBits rst start tick timerOk irqOk < 32 := by
  cases rst <;> cases start <;> cases tick <;> cases timerOk <;> cases irqOk <;> decide

/-- A packed word has WW bits. -/
theorem pack_lt {sw : Nat} {v : Nat} (hv : v < 2 ^ sw) (rst start tick timerOk irqOk : Bool) :
    pack sw rst start tick timerOk irqOk v < 2 ^ wordWidth sw := by
  have hc := controlBits_lt rst start tick timerOk irqOk
  rw [pack_eq, wordWidth, pow_add]
  calc 2 ^ sw * controlBits rst start tick timerOk irqOk + v
      < 2 ^ sw * controlBits rst start tick timerOk irqOk + 2 ^ sw := by omega
    _ = 2 ^ sw * (controlBits rst start tick timerOk irqOk + 1) := by ring
    _ ≤ 2 ^ sw * 2 ^ 5 := Nat.mul_le_mul_left _ (by omega)

theorem pack_div {sw : Nat} {v : Nat} (hv : v < 2 ^ sw) (rst start tick timerOk irqOk : Bool) :
    pack sw rst start tick timerOk irqOk v / 2 ^ sw = controlBits rst start tick timerOk irqOk := by
  rw [pack_eq, Nat.mul_add_div (Nat.two_pow_pos sw), Nat.div_eq_of_lt hv, Nat.add_zero]

/-- The sample field of a packed word. -/
theorem sampleField_pack {sw : Nat} {v : Nat} (hv : v < 2 ^ sw) (rst start tick timerOk irqOk : Bool) :
    sampleField sw (pack sw rst start tick timerOk irqOk v) = v := by
  rw [sampleField, pack_eq, Nat.mul_add_mod, Nat.mod_eq_of_lt hv]

/-- A control bit of a word is a bit of the word shifted past its sample. -/
theorem testBit_control (sw i : Nat) (w : Nat) : w.testBit (sw + i) = (w / 2 ^ sw).testBit i := by
  rw [Nat.testBit_div_two_pow, Nat.add_comm]

theorem rstBit_pack {sw : Nat} {v : Nat} (hv : v < 2 ^ sw) (rst start tick timerOk irqOk : Bool) :
    rstBit sw (pack sw rst start tick timerOk irqOk v) = rst := by
  rw [rstBit, testBit_control, pack_div hv]
  cases rst <;> cases start <;> cases tick <;> cases timerOk <;> cases irqOk <;> decide

theorem startBit_pack {sw : Nat} {v : Nat} (hv : v < 2 ^ sw) (rst start tick timerOk irqOk : Bool) :
    startBit sw (pack sw rst start tick timerOk irqOk v) = start := by
  rw [startBit, testBit_control, pack_div hv]
  cases rst <;> cases start <;> cases tick <;> cases timerOk <;> cases irqOk <;> decide

theorem tickBit_pack {sw : Nat} {v : Nat} (hv : v < 2 ^ sw) (rst start tick timerOk irqOk : Bool) :
    tickBit sw (pack sw rst start tick timerOk irqOk v) = tick := by
  rw [tickBit, testBit_control, pack_div hv]
  cases rst <;> cases start <;> cases tick <;> cases timerOk <;> cases irqOk <;> decide

theorem timerOkBit_pack {sw : Nat} {v : Nat} (hv : v < 2 ^ sw) (rst start tick timerOk irqOk : Bool) :
    timerOkBit sw (pack sw rst start tick timerOk irqOk v) = timerOk := by
  rw [timerOkBit, testBit_control, pack_div hv]
  cases rst <;> cases start <;> cases tick <;> cases timerOk <;> cases irqOk <;> decide

theorem irqOkBit_pack {sw : Nat} {v : Nat} (hv : v < 2 ^ sw) (rst start tick timerOk irqOk : Bool) :
    irqOkBit sw (pack sw rst start tick timerOk irqOk v) = irqOk := by
  rw [irqOkBit, ← Nat.add_zero sw, testBit_control, Nat.add_zero, pack_div hv]
  cases rst <;> cases start <;> cases tick <;> cases timerOk <;> cases irqOk <;> decide

/-- A pattern of a sample fits its field. -/
theorem toPattern_lt_two_pow (sw : Nat) (x : Int) : toPattern sw x < 2 ^ sw := (BitVec.ofInt sw x).isLt

end Sys2Proof.Laws
end

