-- ==== Sys2Proof/Laws/Memory.lean ====
section
/-! SUPPORT. The laws of BUF: read after write, the canonical form, the block the engine reads; and of seven-entry records. -/

namespace Sys2Proof.Laws

open Sys2Proof.Machine

/-- The entry of a record made of a function. -/
@[simp] theorem tone_tonesOf {α : Type} (f : Fin 7 → α) (i : Fin 7) : tone (tonesOf f) i = f i := by
  fin_cases i <;> rfl

theorem readWord_writeWord_same (m : Memory) (i : Nat) (v : Nat) : readWord (writeWord m i v) i = some v := by
  induction m with
  | nil => simp [writeWord, readWord]
  | cons p m ih =>
    obtain ⟨j, u⟩ := p
    rcases Nat.lt_trichotomy i j with h | h | h
    · simp [writeWord, readWord, h]
    · simp [writeWord, readWord, h]
    · simp [writeWord, readWord, Nat.not_lt_of_gt h, Nat.ne_of_gt h, ih]

theorem readWord_writeWord_other (m : Memory) {i j : Nat} (v : Nat) (h : j ≠ i) :
    readWord (writeWord m i v) j = readWord m j := by
  induction m with
  | nil => simp [writeWord, readWord, h]
  | cons p m ih =>
    obtain ⟨l, u⟩ := p
    rcases Nat.lt_trichotomy i l with hl | hl | hl
    · simp [writeWord, readWord, hl, h]
    · subst hl; simp [writeWord, readWord, h]
    · by_cases hj : j = l
      · simp [writeWord, readWord, Nat.not_lt_of_gt hl, Nat.ne_of_gt hl, hj]
      · simp [writeWord, readWord, Nat.not_lt_of_gt hl, Nat.ne_of_gt hl, hj, ih]

/-- Reading after a write, in one equation. -/
theorem readWord_writeWord (m : Memory) (i j : Nat) (v : Nat) :
    readWord (writeWord m i v) j = if j = i then some v else readWord m j := by
  split
  · next h => subst h; exact readWord_writeWord_same m j v
  · next h => exact readWord_writeWord_other m v h

@[simp] theorem readWord_nil (i : Nat) : readWord [] i = none := rfl

/-- What the canonical form says of its first entry and of the rest. -/
theorem wf_cons {n sw i : Nat} {v : Nat} {m : Memory} :
    Memory.wf n sw ((i, v) :: m) = true ↔
      i < n ∧ v < 2 ^ sw ∧ (∀ p ∈ m, i < p.1) ∧ Memory.wf n sw m = true := by
  simp only [Memory.wf, Bool.and_eq_true, decide_eq_true_eq, List.all_eq_true, and_assoc]

theorem mem_writeWord {m : Memory} {i : Nat} {v : Nat} {p : Nat × Nat} (h : p ∈ writeWord m i v) :
    p = (i, v) ∨ p ∈ m := by
  induction m with
  | nil => simpa [writeWord] using h
  | cons q m ih =>
    obtain ⟨j, u⟩ := q
    unfold writeWord at h
    split at h
    · simpa using h
    · split at h
      · rcases List.mem_cons.mp h with h | h
        · exact .inl h
        · exact .inr (List.mem_cons_of_mem _ h)
      · rcases List.mem_cons.mp h with h | h
        · exact .inr (h ▸ List.mem_cons_self)
        · exact (ih h).imp id (List.mem_cons_of_mem _)

/-- A write of a SAMPLE_W-bit pattern at an index of the address space keeps the canonical form. -/
theorem writeWord_wf {n sw : Nat} {m : Memory} {i : Nat} {v : Nat} (hm : Memory.wf n sw m = true) (hi : i < n)
    (hv : v < 2 ^ sw) : Memory.wf n sw (writeWord m i v) = true := by
  induction m with
  | nil => simp [writeWord, hi, hv, Memory.wf]
  | cons q m ih =>
    obtain ⟨j, u⟩ := q
    obtain ⟨hj, hu, hall, hrest⟩ := wf_cons.mp hm
    unfold writeWord
    split
    · next h =>
      refine wf_cons.mpr ⟨hi, hv, ?_, hm⟩
      intro p hp
      rcases List.mem_cons.mp hp with rfl | hp
      · exact h
      · exact Nat.lt_trans h (hall p hp)
    · split
      · next h => subst h; exact wf_cons.mpr ⟨hi, hv, hall, hrest⟩
      · next h1 h2 =>
        refine wf_cons.mpr ⟨hj, hu, ?_, ih hrest⟩
        intro p hp
        rcases mem_writeWord hp with rfl | hp
        · show j < i
          omega
        · exact hall p hp

/-- A `w`-bit pattern fits in `w` bits. -/
theorem toPattern_lt (w : Nat) (x : Int) : toPattern w x < 2 ^ w := (BitVec.ofInt w x).isLt

/-- A free word has SAMPLE_W bits. -/
theorem unwrittenWord_lt (sw epoch i : Nat) : unwrittenWord sw epoch i < 2 ^ sw := Nat.mod_lt _ (Nat.two_pow_pos sw)

/-- A written word of a canonical memory has SAMPLE_W bits. -/
theorem readWord_lt {n sw : Nat} {m : Memory} (hm : Memory.wf n sw m = true) {i v : Nat} (h : readWord m i = some v) :
    v < 2 ^ sw := by
  induction m with
  | nil => simp at h
  | cons p m ih =>
    obtain ⟨j, u⟩ := p
    obtain ⟨-, hu, -, hrest⟩ := wf_cons.mp hm
    unfold readWord at h
    split at h
    · simpa [← Option.some.inj h] using hu
    · exact ih hrest h

/-- Every word of BUF has SAMPLE_W bits, written or not (10_state.md R23). -/
theorem bufWord_lt {s : State} {n : Nat} (hm : Memory.wf n s.cfg.sampleW s.buf = true) (i : Nat) :
    bufWord s i < 2 ^ s.cfg.sampleW := by
  unfold bufWord
  cases h : readWord s.buf i with
  | none => exact unwrittenWord_lt _ _ _
  | some v => exact readWord_lt hm h

/-- The block depends on the words read alone. -/
theorem readBlock_congr {s t : State} {len : Nat} (hc : t.cfg = s.cfg) (h : ∀ i < len, bufWord t i = bufWord s i) :
    readBlock t len = readBlock s len := by
  unfold readBlock
  refine List.map_congr_left fun i hi => ?_
  unfold readSample
  rw [hc, h i (List.mem_range.mp hi)]

/-- The block has the length asked for. -/
@[simp] theorem readBlock_length (s : State) (len : Nat) : (readBlock s len).length = len := by simp [readBlock]

end Sys2Proof.Laws
end

