-- ==== Sys2Proof/Laws/State.lean ====
section
/-! SUPPORT. One lemma per field and update of State, so that no proof unfolds a record update. -/

namespace Sys2Proof.Laws

open Sys2Proof.Machine

@[simp] theorem sampleInput_cfg (c : CycleInput) (s : State) : (sampleInput c s).cfg = s.cfg := rfl
@[simp] theorem sampleInput_state (c : CycleInput) (s : State) : (sampleInput c s).state = s.state := rfl
@[simp] theorem sampleInput_cursor (c : CycleInput) (s : State) : (sampleInput c s).cursor = s.cursor := rfl
@[simp] theorem sampleInput_diag (c : CycleInput) (s : State) : (sampleInput c s).diag = s.diag := rfl
@[simp] theorem sampleInput_buf (c : CycleInput) (s : State) : (sampleInput c s).buf = s.buf := rfl
@[simp] theorem sampleInput_detValid (c : CycleInput) (s : State) : (sampleInput c s).detValid = s.detValid := rfl
@[simp] theorem sampleInput_detHit (c : CycleInput) (s : State) : (sampleInput c s).detHit = s.detHit := rfl
@[simp] theorem sampleInput_detRow (c : CycleInput) (s : State) : (sampleInput c s).detRow = s.detRow := rfl
@[simp] theorem sampleInput_detCol (c : CycleInput) (s : State) : (sampleInput c s).detCol = s.detCol := rfl
@[simp] theorem sampleInput_detSym (c : CycleInput) (s : State) : (sampleInput c s).detSym = s.detSym := rfl
@[simp] theorem sampleInput_energy (c : CycleInput) (s : State) : (sampleInput c s).energy = s.energy := rfl
@[simp] theorem sampleInput_draw (c : CycleInput) (s : State) : (sampleInput c s).draw = c.done := rfl
@[simp] theorem sampleInput_trace (c : CycleInput) (s : State) : (sampleInput c s).trace = s.trace.tail := rfl
@[simp] theorem sampleInput_bufEpoch (c : CycleInput) (s : State) : (sampleInput c s).bufEpoch = s.bufEpoch := rfl
@[simp] theorem sampleInput_freeIndex (c : CycleInput) (s : State) : (sampleInput c s).freeIndex = s.freeIndex + 1 := rfl

@[simp] theorem clearValid_cfg (s : State) : (clearValid s).cfg = s.cfg := rfl
@[simp] theorem clearValid_state (s : State) : (clearValid s).state = s.state := rfl
@[simp] theorem clearValid_cursor (s : State) : (clearValid s).cursor = s.cursor := rfl
@[simp] theorem clearValid_diag (s : State) : (clearValid s).diag = s.diag := rfl
@[simp] theorem clearValid_buf (s : State) : (clearValid s).buf = s.buf := rfl
@[simp] theorem clearValid_detValid (s : State) : (clearValid s).detValid = false := rfl
@[simp] theorem clearValid_detHit (s : State) : (clearValid s).detHit = s.detHit := rfl
@[simp] theorem clearValid_detRow (s : State) : (clearValid s).detRow = s.detRow := rfl
@[simp] theorem clearValid_detCol (s : State) : (clearValid s).detCol = s.detCol := rfl
@[simp] theorem clearValid_detSym (s : State) : (clearValid s).detSym = s.detSym := rfl
@[simp] theorem clearValid_energy (s : State) : (clearValid s).energy = s.energy := rfl
@[simp] theorem clearValid_draw (s : State) : (clearValid s).draw = s.draw := rfl
@[simp] theorem clearValid_trace (s : State) : (clearValid s).trace = s.trace := rfl
@[simp] theorem clearValid_bufEpoch (s : State) : (clearValid s).bufEpoch = s.bufEpoch := rfl
@[simp] theorem clearValid_freeIndex (s : State) : (clearValid s).freeIndex = s.freeIndex := rfl

@[simp] theorem resetBlock_cfg (s : State) : (resetBlock s).cfg = s.cfg := rfl
@[simp] theorem resetBlock_state (s : State) : (resetBlock s).state = .idle := rfl
@[simp] theorem resetBlock_cursor (s : State) : (resetBlock s).cursor = 0 := rfl
@[simp] theorem resetBlock_diag (s : State) : (resetBlock s).diag = .none := rfl
@[simp] theorem resetBlock_buf (s : State) : (resetBlock s).buf = [] := rfl
@[simp] theorem resetBlock_detValid (s : State) : (resetBlock s).detValid = false := rfl
@[simp] theorem resetBlock_detHit (s : State) : (resetBlock s).detHit = false := rfl
@[simp] theorem resetBlock_detRow (s : State) : (resetBlock s).detRow = 0 := rfl
@[simp] theorem resetBlock_detCol (s : State) : (resetBlock s).detCol = 0 := rfl
@[simp] theorem resetBlock_detSym (s : State) : (resetBlock s).detSym = 0x00 := rfl
@[simp] theorem resetBlock_energy (s : State) : (resetBlock s).energy = freeEnergies s := rfl
@[simp] theorem resetBlock_draw (s : State) : (resetBlock s).draw = s.draw := rfl
@[simp] theorem resetBlock_trace (s : State) : (resetBlock s).trace = s.trace := rfl
@[simp] theorem resetBlock_bufEpoch (s : State) : (resetBlock s).bufEpoch = s.freeIndex := rfl
@[simp] theorem resetBlock_freeIndex (s : State) : (resetBlock s).freeIndex = s.freeIndex := rfl

@[simp] theorem raiseStartupFault_cfg (cause : StartupCause) (s : State) : (raiseStartupFault cause s).cfg = s.cfg := rfl
@[simp] theorem raiseStartupFault_state (cause : StartupCause) (s : State) : (raiseStartupFault cause s).state = .halted := rfl
@[simp] theorem raiseStartupFault_cursor (cause : StartupCause) (s : State) : (raiseStartupFault cause s).cursor = s.cursor := rfl
@[simp] theorem raiseStartupFault_diag (cause : StartupCause) (s : State) : (raiseStartupFault cause s).diag = diagOf cause := rfl
@[simp] theorem raiseStartupFault_buf (cause : StartupCause) (s : State) : (raiseStartupFault cause s).buf = s.buf := rfl
@[simp] theorem raiseStartupFault_detValid (cause : StartupCause) (s : State) : (raiseStartupFault cause s).detValid = false := rfl
@[simp] theorem raiseStartupFault_detHit (cause : StartupCause) (s : State) : (raiseStartupFault cause s).detHit = s.detHit := rfl
@[simp] theorem raiseStartupFault_detRow (cause : StartupCause) (s : State) : (raiseStartupFault cause s).detRow = s.detRow := rfl
@[simp] theorem raiseStartupFault_detCol (cause : StartupCause) (s : State) : (raiseStartupFault cause s).detCol = s.detCol := rfl
@[simp] theorem raiseStartupFault_detSym (cause : StartupCause) (s : State) : (raiseStartupFault cause s).detSym = s.detSym := rfl
@[simp] theorem raiseStartupFault_energy (cause : StartupCause) (s : State) : (raiseStartupFault cause s).energy = s.energy := rfl
@[simp] theorem raiseStartupFault_draw (cause : StartupCause) (s : State) : (raiseStartupFault cause s).draw = s.draw := rfl
@[simp] theorem raiseStartupFault_trace (cause : StartupCause) (s : State) : (raiseStartupFault cause s).trace = s.trace := rfl
@[simp] theorem raiseStartupFault_bufEpoch (cause : StartupCause) (s : State) : (raiseStartupFault cause s).bufEpoch = s.bufEpoch := rfl
@[simp] theorem raiseStartupFault_freeIndex (cause : StartupCause) (s : State) : (raiseStartupFault cause s).freeIndex = s.freeIndex := rfl

@[simp] theorem enterBuffering_cfg (s : State) : (enterBuffering s).cfg = s.cfg := rfl
@[simp] theorem enterBuffering_state (s : State) : (enterBuffering s).state = .buffering := rfl
@[simp] theorem enterBuffering_cursor (s : State) : (enterBuffering s).cursor = s.cursor := rfl
@[simp] theorem enterBuffering_diag (s : State) : (enterBuffering s).diag = s.diag := rfl
@[simp] theorem enterBuffering_buf (s : State) : (enterBuffering s).buf = s.buf := rfl
@[simp] theorem enterBuffering_detValid (s : State) : (enterBuffering s).detValid = false := rfl
@[simp] theorem enterBuffering_detHit (s : State) : (enterBuffering s).detHit = s.detHit := rfl
@[simp] theorem enterBuffering_detRow (s : State) : (enterBuffering s).detRow = s.detRow := rfl
@[simp] theorem enterBuffering_detCol (s : State) : (enterBuffering s).detCol = s.detCol := rfl
@[simp] theorem enterBuffering_detSym (s : State) : (enterBuffering s).detSym = s.detSym := rfl
@[simp] theorem enterBuffering_energy (s : State) : (enterBuffering s).energy = s.energy := rfl
@[simp] theorem enterBuffering_draw (s : State) : (enterBuffering s).draw = s.draw := rfl
@[simp] theorem enterBuffering_trace (s : State) : (enterBuffering s).trace = s.trace := rfl
@[simp] theorem enterBuffering_bufEpoch (s : State) : (enterBuffering s).bufEpoch = s.bufEpoch := rfl
@[simp] theorem enterBuffering_freeIndex (s : State) : (enterBuffering s).freeIndex = s.freeIndex := rfl

@[simp] theorem storeWord_cfg (i : Nat) (v : Nat) (s : State) : (storeWord i v s).cfg = s.cfg := rfl
@[simp] theorem storeWord_state (i : Nat) (v : Nat) (s : State) : (storeWord i v s).state = s.state := rfl
@[simp] theorem storeWord_cursor (i : Nat) (v : Nat) (s : State) : (storeWord i v s).cursor = s.cursor := rfl
@[simp] theorem storeWord_diag (i : Nat) (v : Nat) (s : State) : (storeWord i v s).diag = s.diag := rfl
@[simp] theorem storeWord_buf (i : Nat) (v : Nat) (s : State) : (storeWord i v s).buf = writeWord s.buf i v := rfl
@[simp] theorem storeWord_detValid (i : Nat) (v : Nat) (s : State) : (storeWord i v s).detValid = s.detValid := rfl
@[simp] theorem storeWord_detHit (i : Nat) (v : Nat) (s : State) : (storeWord i v s).detHit = s.detHit := rfl
@[simp] theorem storeWord_detRow (i : Nat) (v : Nat) (s : State) : (storeWord i v s).detRow = s.detRow := rfl
@[simp] theorem storeWord_detCol (i : Nat) (v : Nat) (s : State) : (storeWord i v s).detCol = s.detCol := rfl
@[simp] theorem storeWord_detSym (i : Nat) (v : Nat) (s : State) : (storeWord i v s).detSym = s.detSym := rfl
@[simp] theorem storeWord_energy (i : Nat) (v : Nat) (s : State) : (storeWord i v s).energy = s.energy := rfl
@[simp] theorem storeWord_draw (i : Nat) (v : Nat) (s : State) : (storeWord i v s).draw = s.draw := rfl
@[simp] theorem storeWord_trace (i : Nat) (v : Nat) (s : State) : (storeWord i v s).trace = s.trace := rfl
@[simp] theorem storeWord_bufEpoch (i : Nat) (v : Nat) (s : State) : (storeWord i v s).bufEpoch = s.bufEpoch := rfl
@[simp] theorem storeWord_freeIndex (i : Nat) (v : Nat) (s : State) : (storeWord i v s).freeIndex = s.freeIndex := rfl

@[simp] theorem loadEnergy_cfg (e : Tones Nat) (s : State) : (loadEnergy e s).cfg = s.cfg := rfl
@[simp] theorem loadEnergy_state (e : Tones Nat) (s : State) : (loadEnergy e s).state = s.state := rfl
@[simp] theorem loadEnergy_cursor (e : Tones Nat) (s : State) : (loadEnergy e s).cursor = s.cursor := rfl
@[simp] theorem loadEnergy_diag (e : Tones Nat) (s : State) : (loadEnergy e s).diag = s.diag := rfl
@[simp] theorem loadEnergy_buf (e : Tones Nat) (s : State) : (loadEnergy e s).buf = s.buf := rfl
@[simp] theorem loadEnergy_detValid (e : Tones Nat) (s : State) : (loadEnergy e s).detValid = s.detValid := rfl
@[simp] theorem loadEnergy_detHit (e : Tones Nat) (s : State) : (loadEnergy e s).detHit = s.detHit := rfl
@[simp] theorem loadEnergy_detRow (e : Tones Nat) (s : State) : (loadEnergy e s).detRow = s.detRow := rfl
@[simp] theorem loadEnergy_detCol (e : Tones Nat) (s : State) : (loadEnergy e s).detCol = s.detCol := rfl
@[simp] theorem loadEnergy_detSym (e : Tones Nat) (s : State) : (loadEnergy e s).detSym = s.detSym := rfl
@[simp] theorem loadEnergy_energy (e : Tones Nat) (s : State) : (loadEnergy e s).energy = e := rfl
@[simp] theorem loadEnergy_draw (e : Tones Nat) (s : State) : (loadEnergy e s).draw = s.draw := rfl
@[simp] theorem loadEnergy_trace (e : Tones Nat) (s : State) : (loadEnergy e s).trace = s.trace := rfl
@[simp] theorem loadEnergy_bufEpoch (e : Tones Nat) (s : State) : (loadEnergy e s).bufEpoch = s.bufEpoch := rfl
@[simp] theorem loadEnergy_freeIndex (e : Tones Nat) (s : State) : (loadEnergy e s).freeIndex = s.freeIndex := rfl

@[simp] theorem emit_cfg (d : Detection) (s : State) : (emit d s).cfg = s.cfg := by cases d <;> rfl
@[simp] theorem emit_state (d : Detection) (s : State) : (emit d s).state = s.state := by cases d <;> rfl
@[simp] theorem emit_cursor (d : Detection) (s : State) : (emit d s).cursor = s.cursor := by cases d <;> rfl
@[simp] theorem emit_diag (d : Detection) (s : State) : (emit d s).diag = s.diag := by cases d <;> rfl
@[simp] theorem emit_buf (d : Detection) (s : State) : (emit d s).buf = s.buf := by cases d <;> rfl
@[simp] theorem emit_detValid (d : Detection) (s : State) : (emit d s).detValid = true := by cases d <;> rfl
@[simp] theorem emit_hit_detHit (r : Fin 4) (c : Fin 3) (sym : Symbol) (s : State) : (emit (.hit r c sym) s).detHit = true := rfl
@[simp] theorem emit_noTone_detHit (s : State) : (emit .noTone s).detHit = false := rfl
@[simp] theorem emit_hit_detRow (r : Fin 4) (c : Fin 3) (sym : Symbol) (s : State) : (emit (.hit r c sym) s).detRow = BitVec.ofNat 2 r.val := rfl
@[simp] theorem emit_noTone_detRow (s : State) : (emit .noTone s).detRow = 0 := rfl
@[simp] theorem emit_hit_detCol (r : Fin 4) (c : Fin 3) (sym : Symbol) (s : State) : (emit (.hit r c sym) s).detCol = BitVec.ofNat 2 c.val := rfl
@[simp] theorem emit_noTone_detCol (s : State) : (emit .noTone s).detCol = 0 := rfl
@[simp] theorem emit_hit_detSym (r : Fin 4) (c : Fin 3) (sym : Symbol) (s : State) : (emit (.hit r c sym) s).detSym = sym := rfl
@[simp] theorem emit_noTone_detSym (s : State) : (emit .noTone s).detSym = 0x00 := rfl
@[simp] theorem emit_energy (d : Detection) (s : State) : (emit d s).energy = s.energy := by cases d <;> rfl
@[simp] theorem emit_draw (d : Detection) (s : State) : (emit d s).draw = s.draw := by cases d <;> rfl
@[simp] theorem emit_trace (d : Detection) (s : State) : (emit d s).trace = s.trace := by cases d <;> rfl
@[simp] theorem emit_bufEpoch (d : Detection) (s : State) : (emit d s).bufEpoch = s.bufEpoch := by cases d <;> rfl
@[simp] theorem emit_freeIndex (d : Detection) (s : State) : (emit d s).freeIndex = s.freeIndex := by cases d <;> rfl

@[simp] theorem complete_cfg (s : State) : (complete s).cfg = s.cfg := by simp [complete]
@[simp] theorem complete_state (s : State) : (complete s).state = .buffering := rfl
@[simp] theorem complete_cursor (s : State) : (complete s).cursor = s.cursor := by simp [complete]
@[simp] theorem complete_diag (s : State) : (complete s).diag = s.diag := by simp [complete]
@[simp] theorem complete_buf (s : State) : (complete s).buf = s.buf := by simp [complete]
@[simp] theorem complete_detValid (s : State) : (complete s).detValid = true := by simp [complete]
theorem complete_detHit (s : State) : (complete s).detHit = (emit (classify s.cfg s.energy) s).detHit := rfl
theorem complete_detRow (s : State) : (complete s).detRow = (emit (classify s.cfg s.energy) s).detRow := rfl
theorem complete_detCol (s : State) : (complete s).detCol = (emit (classify s.cfg s.energy) s).detCol := rfl
theorem complete_detSym (s : State) : (complete s).detSym = (emit (classify s.cfg s.energy) s).detSym := rfl
@[simp] theorem complete_energy (s : State) : (complete s).energy = freeEnergies s := rfl
@[simp] theorem complete_draw (s : State) : (complete s).draw = s.draw := by simp [complete]
@[simp] theorem complete_trace (s : State) : (complete s).trace = s.trace := by simp [complete]
@[simp] theorem complete_bufEpoch (s : State) : (complete s).bufEpoch = s.bufEpoch := by simp [complete]
@[simp] theorem complete_freeIndex (s : State) : (complete s).freeIndex = s.freeIndex := by simp [complete]

@[simp] theorem advanceCursor_cfg (s : State) : (advanceCursor s).cfg = s.cfg := by
  unfold advanceCursor; split <;> rfl
@[simp] theorem advanceCursor_diag (s : State) : (advanceCursor s).diag = s.diag := by
  unfold advanceCursor; split <;> rfl
@[simp] theorem advanceCursor_buf (s : State) : (advanceCursor s).buf = s.buf := by
  unfold advanceCursor; split <;> rfl
@[simp] theorem advanceCursor_detValid (s : State) : (advanceCursor s).detValid = false := by
  unfold advanceCursor; split <;> rfl
@[simp] theorem advanceCursor_detHit (s : State) : (advanceCursor s).detHit = s.detHit := by
  unfold advanceCursor; split <;> rfl
@[simp] theorem advanceCursor_detRow (s : State) : (advanceCursor s).detRow = s.detRow := by
  unfold advanceCursor; split <;> rfl
@[simp] theorem advanceCursor_detCol (s : State) : (advanceCursor s).detCol = s.detCol := by
  unfold advanceCursor; split <;> rfl
@[simp] theorem advanceCursor_detSym (s : State) : (advanceCursor s).detSym = s.detSym := by
  unfold advanceCursor; split <;> rfl
@[simp] theorem advanceCursor_energy (s : State) : (advanceCursor s).energy = s.energy := by
  unfold advanceCursor; split <;> rfl
@[simp] theorem advanceCursor_draw (s : State) : (advanceCursor s).draw = s.draw := by
  unfold advanceCursor; split <;> rfl
@[simp] theorem advanceCursor_trace (s : State) : (advanceCursor s).trace = s.trace := by
  unfold advanceCursor; split <;> rfl
@[simp] theorem advanceCursor_bufEpoch (s : State) : (advanceCursor s).bufEpoch = s.bufEpoch := by
  unfold advanceCursor; split <;> rfl
@[simp] theorem advanceCursor_freeIndex (s : State) : (advanceCursor s).freeIndex = s.freeIndex := by
  unfold advanceCursor; split <;> rfl

/-- A write below the last word moves the cursor on. -/
theorem advanceCursor_of_ne (s : State) (h : s.cursor ≠ s.cfg.n - 1) :
    (advanceCursor s).cursor = s.cursor + 1 ∧ (advanceCursor s).state = s.state := by
  simp [advanceCursor, h]

/-- The write at the last word fills the buffer. -/
theorem advanceCursor_of_eq (s : State) (h : s.cursor = s.cfg.n - 1) :
    (advanceCursor s).cursor = 0 ∧ (advanceCursor s).state = .processing := by
  simp [advanceCursor, h]

/-! ## The words of BUF after each update -/

/-- The contents of BUF depend on three fields alone. -/
theorem bufWord_congr {s t : State} (hc : t.cfg = s.cfg) (hb : t.buf = s.buf) (he : t.bufEpoch = s.bufEpoch) (i : Nat) :
    bufWord t i = bufWord s i := by
  unfold bufWord
  rw [hc, hb, he]

@[simp] theorem bufWord_sampleInput (c : CycleInput) (s : State) (i : Nat) : bufWord (sampleInput c s) i = bufWord s i := rfl
@[simp] theorem bufWord_clearValid (s : State) (i : Nat) : bufWord (clearValid s) i = bufWord s i := rfl
@[simp] theorem bufWord_raiseStartupFault (cause : StartupCause) (s : State) (i : Nat) :
    bufWord (raiseStartupFault cause s) i = bufWord s i := rfl
@[simp] theorem bufWord_enterBuffering (s : State) (i : Nat) : bufWord (enterBuffering s) i = bufWord s i := rfl
@[simp] theorem bufWord_loadEnergy (e : Tones Nat) (s : State) (i : Nat) : bufWord (loadEnergy e s) i = bufWord s i := rfl
@[simp] theorem bufWord_emit (d : Detection) (s : State) (i : Nat) : bufWord (emit d s) i = bufWord s i := by cases d <;> rfl
@[simp] theorem bufWord_complete (s : State) (i : Nat) : bufWord (complete s) i = bufWord s i :=
  bufWord_congr (complete_cfg s) (complete_buf s) (complete_bufEpoch s) i
@[simp] theorem bufWord_advanceCursor (s : State) (i : Nat) : bufWord (advanceCursor s) i = bufWord s i :=
  bufWord_congr (advanceCursor_cfg s) (advanceCursor_buf s) (advanceCursor_bufEpoch s) i

/-- After RESET every word of BUF is a free value. -/
@[simp] theorem bufWord_resetBlock (s : State) (i : Nat) :
    bufWord (resetBlock s) i = unwrittenWord s.cfg.sampleW s.freeIndex i := rfl

/-- A store, read back. -/
theorem bufWord_storeWord (i v j : Nat) (s : State) : bufWord (storeWord i v s) j = if j = i then v else bufWord s j := by
  unfold bufWord
  rw [storeWord_buf, readWord_writeWord]
  split <;> rfl

end Sys2Proof.Laws
end

