-- ==== Sys2Proof/Laws/Ops.lean ====
section
/-! SUPPORT. One lemma per shared operation, saying once everything it can do, and one for `exec` as a whole. -/

namespace Sys2Proof.Laws

open Sys2Proof.Machine

/-- A sequence answers a next state only through a next state in the middle. -/
theorem andThen_eq_next {r : Result} {f : State → Result} {t : State} :
    andThen r f = .next t ↔ ∃ u, r = .next u ∧ f u = .next t := by
  cases r <;> simp [andThen]

@[simp] theorem andThen_next (s : State) (f : State → Result) : andThen (.next s) f = f s := rfl

/-- One row of the decode table answers a next state only in one of the four legal states, by that state's column. -/
theorem byState_eq_next {s : State} {a b c d : Result} {t : State} :
    byState s a b c d = .next t ↔
      diagLegal s.diag = true ∧
        (s.state = .idle ∧ a = .next t ∨ s.state = .buffering ∧ b = .next t ∨ s.state = .processing ∧ c = .next t ∨
          s.state = .halted ∧ d = .next t) := by
  unfold byState
  by_cases h : diagLegal s.diag = true
  · cases hs : s.state <;> simp [h]
  · simp [h]

theorem byState_idle {s : State} (a b c d : Result) (h : diagLegal s.diag = true) (hs : s.state = .idle) :
    byState s a b c d = a := by simp [byState, h, hs]

theorem byState_buffering {s : State} (a b c d : Result) (h : diagLegal s.diag = true) (hs : s.state = .buffering) :
    byState s a b c d = b := by simp [byState, h, hs]

theorem byState_processing {s : State} (a b c d : Result) (h : diagLegal s.diag = true) (hs : s.state = .processing) :
    byState s a b c d = c := by simp [byState, h, hs]

theorem byState_halted {s : State} (a b c d : Result) (h : diagLegal s.diag = true) (hs : s.state = .halted) :
    byState s a b c d = d := by simp [byState, h, hs]

/-- The legal codes, taken apart. -/
theorem legalCodes_iff {s : State} :
    legalCodes s = true ↔
      diagLegal s.diag = true ∧
        (s.state = .idle ∨ s.state = .buffering ∨ s.state = .processing ∨ s.state = .halted) := by
  cases hs : s.state <;> simp [legalCodes, phaseLegal, hs]

/-- START in IDLE either enters BUFFERING, every check passed, or raises the first failing check's fault. -/
theorem startPipeline_eq_next {timerOk irqOk : Bool} {s t : State} :
    startPipeline timerOk irqOk s = .next t ↔
      startupCheck s.cfg timerOk irqOk = none ∧ t = enterBuffering s ∨
        ∃ cause, startupCheck s.cfg timerOk irqOk = some cause ∧ t = raiseStartupFault cause s := by
  unfold startPipeline
  cases startupCheck s.cfg timerOk irqOk <;> simp [eq_comm]

/-- BufWrite stores inside the index space and answers nothing outside it. -/
theorem bufWrite_eq_next {i v : Nat} {s t : State} : bufWrite i v s = .next t ↔ i < s.cfg.n ∧ t = storeWord i v s := by
  unfold bufWrite
  split <;> simp_all [eq_comm]

/-- The cursor after the filling write. -/
theorem advanceCursor_full {s : State} (h : s.cursor = s.cfg.n - 1) :
    advanceCursor s = { s with cursor := 0, state := .processing, detValid := false } := by
  unfold advanceCursor
  rw [if_pos h]

/-- The cursor after any other write. -/
theorem advanceCursor_next {s : State} (h : s.cursor ≠ s.cfg.n - 1) :
    advanceCursor s = { s with cursor := s.cursor + 1, detValid := false } := by
  unfold advanceCursor
  rw [if_neg h]

/-- The free values of E have MAG_W bits (10_state.md R28). -/
theorem freeEnergies_lt (s : State) (i : Fin 7) : tone (freeEnergies s) i < 2 ^ s.cfg.magW := by
  unfold freeEnergies
  rw [tone_tonesOf]
  exact Nat.mod_lt _ (Nat.two_pow_pos _)

/-- An accepted tick stores at CURSOR, inside the address space, and moves the cursor. -/
theorem acceptTick_eq_next {x : Int} {s t : State} :
    acceptTick x s = .next t ↔
      s.cursor < s.cfg.n ∧ t = advanceCursor (storeWord s.cursor (toPattern s.cfg.sampleW x) s) := by
  unfold acceptTick bufWrite
  split <;> simp_all [andThen, eq_comm]

/-- The extractor loads the energies of the block in BUF, in an admitted configuration. -/
theorem analyse_eq_next {s t : State} :
    analyse s = .next t ↔ configAdmitted s.cfg = true ∧ t = loadEnergy (energies s.cfg (readBlock s s.cfg.t)) s := by
  unfold analyse
  by_cases h : configAdmitted s.cfg = true <;> simp [h, eq_comm]

/-- ENGINE_DONE completes the block in BUF. -/
theorem engineDone_eq_next {s t : State} :
    engineDone s = .next t ↔
      configAdmitted s.cfg = true ∧ t = complete (loadEnergy (energies s.cfg (readBlock s s.cfg.t)) s) := by
  unfold engineDone
  rw [andThen_eq_next]
  constructor
  · rintro ⟨u, hu, ht⟩
    obtain ⟨hc, rfl⟩ := analyse_eq_next.mp hu
    exact ⟨hc, by simpa [eq_comm] using ht⟩
  · rintro ⟨hc, rfl⟩
    exact ⟨_, analyse_eq_next.mpr ⟨hc, rfl⟩, rfl⟩

/-- The engine step: a draw of 1 completes the block, a draw of 0 only clears the strobe and keeps the energies. -/
theorem engineStep_eq_next {s t : State} :
    engineStep s = .next t ↔
      configAdmitted s.cfg = true ∧
        (s.draw = true ∧ t = complete (loadEnergy (energies s.cfg (readBlock s s.cfg.t)) s) ∨
          s.draw = false ∧ t = clearValid (loadEnergy (energies s.cfg (readBlock s s.cfg.t)) s)) := by
  unfold engineStep
  cases hd : s.draw
  · simp only [Bool.false_eq_true, if_false, andThen_eq_next, false_and, false_or, true_and]
    constructor
    · rintro ⟨u, hu, ht⟩
      obtain ⟨hc, rfl⟩ := analyse_eq_next.mp hu
      exact ⟨hc, by simpa [eq_comm] using ht⟩
    · rintro ⟨hc, rfl⟩
      exact ⟨_, analyse_eq_next.mpr ⟨hc, rfl⟩, rfl⟩
  · simp [engineDone_eq_next]

/-- Whether an operation asks for a start. -/
def startBits (i : Instr) : Option (Bool × Bool) :=
  match i with
  | .start a b => some (a, b)
  | .startTick a b _ => some (a, b)
  | _ => none

/-- The sample of an operation that carries a tick. -/
def tickSample (i : Instr) : Option Int :=
  match i with
  | .tick x => some x
  | .startTick _ _ x => some x
  | _ => none

/-- Everything an operation can do when it answers a next state: the transitions of 40_acquisition.md R88 and the cycles that
stay. -/
inductive Effect (i : Instr) (s t : State) : Prop
  /-- RESET, in every state. -/
  | reset (hi : i = .reset) (ht : t = resetBlock s)
  /-- A cycle that performs nothing. -/
  | quiet (hi : i ≠ .reset ∧ i ≠ .engineDone)
      (hs : s.state = .idle ∧ startBits i = none ∨ s.state = .buffering ∧ tickSample i = none ∨ s.state = .halted)
      (ht : t = clearValid s)
  /-- START in IDLE, every check passed. -/
  | started (a b : Bool) (hi : startBits i = some (a, b)) (hs : s.state = .idle) (hc : startupCheck s.cfg a b = none)
      (ht : t = enterBuffering s)
  /-- START in IDLE, a check failed. -/
  | halted (a b : Bool) (cause : StartupCause) (hi : startBits i = some (a, b)) (hs : s.state = .idle)
      (hc : startupCheck s.cfg a b = some cause) (ht : t = raiseStartupFault cause s)
  /-- An accepted tick. -/
  | accepted (x : Int) (hi : tickSample i = some x) (hs : s.state = .buffering) (hc : s.cursor < s.cfg.n)
      (ht : t = advanceCursor (storeWord s.cursor (toPattern s.cfg.sampleW x) s))
  /-- An engine step whose draw is 0. -/
  | waited (hi : i ≠ .reset ∧ i ≠ .engineDone) (hs : s.state = .processing) (hd : s.draw = false)
      (ha : configAdmitted s.cfg = true) (ht : t = clearValid (loadEnergy (energies s.cfg (readBlock s s.cfg.t)) s))
  /-- ENGINE_DONE, the event itself or the engine step whose draw is 1. -/
  | completed (hi : i ≠ .reset) (hs : s.state = .processing) (hd : i = .engineDone ∨ s.draw = true)
      (ha : configAdmitted s.cfg = true) (ht : t = complete (loadEnergy (energies s.cfg (readBlock s s.cfg.t)) s))

/-- The effect of an engine step, for every operation that takes one. -/
theorem effect_of_engineStep {i : Instr} {s t : State} (hi : i ≠ .reset ∧ i ≠ .engineDone) (hs : s.state = .processing)
    (h : engineStep s = .next t) : Effect i s t := by
  obtain ⟨ha, ⟨hd, ht⟩ | ⟨hd, ht⟩⟩ := engineStep_eq_next.mp h
  · exact .completed hi.1 hs (.inr hd) ha ht
  · exact .waited hi hs hd ha ht

theorem effect_of_startPipeline {i : Instr} {s t : State} {a b : Bool} (hi : startBits i = some (a, b))
    (hs : s.state = .idle) (h : startPipeline a b s = .next t) : Effect i s t := by
  obtain ⟨hc, ht⟩ | ⟨cause, hc, ht⟩ := startPipeline_eq_next.mp h
  · exact .started a b hi hs hc ht
  · exact .halted a b cause hi hs hc ht

theorem effect_of_acceptTick {i : Instr} {s t : State} {x : Int} (hi : tickSample i = some x) (hs : s.state = .buffering)
    (h : acceptTick x s = .next t) : Effect i s t := by
  obtain ⟨hc, ht⟩ := acceptTick_eq_next.mp h
  exact .accepted x hi hs hc ht

theorem eq_clearValid_of_nopCycle {s t : State} (h : nopCycle s = .next t) : t = clearValid s := by
  simpa [nopCycle, eq_comm] using h

/-- What `exec` can do: if it answers a next state, one of these effects holds. -/
theorem exec_effect {i : Instr} {s t : State} (h : exec i s = .next t) : Effect i s t := by
  cases i with
  | reset => exact .reset rfl (by simpa [exec, execReset, eq_comm] using h)
  | start a b =>
    obtain ⟨-, ⟨hs, h⟩ | ⟨hs, h⟩ | ⟨hs, h⟩ | ⟨hs, h⟩⟩ := byState_eq_next.mp h
    · exact effect_of_startPipeline rfl hs h
    · exact .quiet (by simp) (.inr (.inl ⟨hs, rfl⟩)) (eq_clearValid_of_nopCycle h)
    · exact effect_of_engineStep (by simp) hs h
    · exact .quiet (by simp) (.inr (.inr hs)) (eq_clearValid_of_nopCycle h)
  | startTick a b x =>
    obtain ⟨-, ⟨hs, h⟩ | ⟨hs, h⟩ | ⟨hs, h⟩ | ⟨hs, h⟩⟩ := byState_eq_next.mp h
    · exact effect_of_startPipeline rfl hs h
    · exact effect_of_acceptTick rfl hs h
    · exact effect_of_engineStep (by simp) hs h
    · exact .quiet (by simp) (.inr (.inr hs)) (eq_clearValid_of_nopCycle h)
  | tick x =>
    obtain ⟨-, ⟨hs, h⟩ | ⟨hs, h⟩ | ⟨hs, h⟩ | ⟨hs, h⟩⟩ := byState_eq_next.mp h
    · exact .quiet (by simp) (.inl ⟨hs, rfl⟩) (eq_clearValid_of_nopCycle h)
    · exact effect_of_acceptTick rfl hs h
    · exact effect_of_engineStep (by simp) hs h
    · exact .quiet (by simp) (.inr (.inr hs)) (eq_clearValid_of_nopCycle h)
  | nop =>
    obtain ⟨-, ⟨hs, h⟩ | ⟨hs, h⟩ | ⟨hs, h⟩ | ⟨hs, h⟩⟩ := byState_eq_next.mp h
    · exact .quiet (by simp) (.inl ⟨hs, rfl⟩) (eq_clearValid_of_nopCycle h)
    · exact .quiet (by simp) (.inr (.inl ⟨hs, rfl⟩)) (eq_clearValid_of_nopCycle h)
    · exact effect_of_engineStep (by simp) hs h
    · exact .quiet (by simp) (.inr (.inr hs)) (eq_clearValid_of_nopCycle h)
  | engineDone =>
    obtain ⟨-, ⟨hs, h⟩ | ⟨hs, h⟩ | ⟨hs, h⟩ | ⟨hs, h⟩⟩ := byState_eq_next.mp h
    · simp at h
    · simp at h
    · obtain ⟨ha, ht⟩ := engineDone_eq_next.mp h
      exact .completed (by simp) hs (.inl rfl) ha ht
    · simp at h

/-- What a step can do: the effect of the decoded operation on the state that has sampled its inputs. -/
theorem step_effect {s t : State} (h : step s = .next t) :
    ∃ i, decode s.cfg.sampleW (nextInput s).word = .instr i ∧ exec i (sampleInput (nextInput s) s) = .next t ∧
      Effect i (sampleInput (nextInput s) s) t := by
  unfold step at h
  split at h
  · next i hi => exact ⟨i, hi, h, exec_effect h⟩
  · simp at h

@[simp] theorem runCycles_zero (s : State) : runCycles 0 s = .next s := rfl

theorem runCycles_succ (k : Nat) (s : State) : runCycles (k + 1) s = andThen (step s) (runCycles k) := rfl

/-- A run of k + 1 cycles that answers is a cycle and then a run of k. -/
theorem runCycles_succ_eq_next {k : Nat} {s t : State} :
    runCycles (k + 1) s = .next t ↔ ∃ u, step s = .next u ∧ runCycles k u = .next t := andThen_eq_next

/-- A word of WW bits decodes, and never to ENGINE_DONE. -/
theorem decode_of_lt {sw : Nat} {w : Nat} (h : w < 2 ^ wordWidth sw) :
    decode sw w = .instr (decodeFields sw w) ∧ decodeFields sw w ≠ .engineDone := by
  refine ⟨by simp [decode, h], ?_⟩
  unfold decodeFields
  split
  · simp
  · split
    · split <;> simp
    · split <;> simp

/-- No word decodes to ENGINE_DONE. -/
theorem decode_ne_engineDone (sw : Nat) (w : Nat) : decode sw w ≠ .instr .engineDone := by
  by_cases h : w < 2 ^ wordWidth sw
  · rw [(decode_of_lt h).1]
    simpa using (decode_of_lt h).2
  · simp [decode, h]

/-- The configuration passes the checks that do not depend on the platform's inputs. -/
theorem configAdmitted_iff {c : Config} :
    configAdmitted c = true ↔ transformSupported c = true ∧ c.n = c.t ∧ c.fs ≠ 0 := by
  unfold configAdmitted startupCheck
  by_cases h1 : transformSupported c = false <;> by_cases h2 : c.n = c.t <;> by_cases h3 : c.fs = 0 <;> simp_all

/-- START admits exactly the admitted configurations, with the platform's services up. -/
theorem startupCheck_eq_none {c : Config} {timerOk irqOk : Bool} :
    startupCheck c timerOk irqOk = none ↔ configAdmitted c = true ∧ timerOk = true ∧ irqOk = true := by
  rw [configAdmitted_iff]
  unfold startupCheck
  by_cases h1 : transformSupported c = false <;> by_cases h2 : c.n = c.t <;> by_cases h3 : c.fs = 0 <;>
    cases timerOk <;> cases irqOk <;> simp_all

/-- T ∈ T_SUPPORTED, as a statement about exponents. -/
theorem transformSupported_iff {c : Config} : transformSupported c = true ↔ ∃ k ∈ c.tSupportedLog, c.t = 2 ^ k := by
  simp [transformSupported]

/-- An admitted configuration has a transform size that is a power of two. -/
theorem admitted_pow {c : Config} (h : configAdmitted c = true) : c.t = 2 ^ Nat.log2 c.t := by
  obtain ⟨k, -, hk⟩ := transformSupported_iff.mp (configAdmitted_iff.mp h).1
  rw [hk, Nat.log2_two_pow]

end Sys2Proof.Laws
end

