-- ==== Sys2Proof/Laws/PerInstr.lean ====
section
/-! SUPPORT. Statements made for every operation, one lemma per constructor. -/

namespace Sys2Proof.Laws.EncodeFits

/-- An operation that has a word has one of WW bits, at every SAMPLE_W; only ENGINE_DONE has none (30_encoding.md R62, R67). -/
def Statement (i : Instr) : Prop :=
  ∀ sw, match encode sw i with
    | some w => w < 2 ^ wordWidth sw
    | none => i = .engineDone

theorem reset : Statement .reset := fun sw => pack_lt (Nat.two_pow_pos sw) _ _ _ _ _

theorem start (timerOk irqOk : Bool) : Statement (.start timerOk irqOk) := fun sw => pack_lt (Nat.two_pow_pos sw) _ _ _ _ _

theorem startTick (timerOk irqOk : Bool) (sample : Int) : Statement (.startTick timerOk irqOk sample) :=
  fun sw => pack_lt (toPattern_lt_two_pow sw sample) _ _ _ _ _

theorem tick (sample : Int) : Statement (.tick sample) := fun sw => pack_lt (toPattern_lt_two_pow sw sample) _ _ _ _ _

theorem nop : Statement .nop := fun sw => pack_lt (Nat.two_pow_pos sw) _ _ _ _ _

theorem engineDone : Statement .engineDone := fun _ => rfl

end Sys2Proof.Laws.EncodeFits
end

