-- ==== Sys2Proof/Laws/Spectral.lean ====
section
/-! SUPPORT. What the exact integer arithmetic of the engine means over the reals (41_spectral.md R103): the value of a number
of level L, the sign test, the cosine table, the sums. -/

namespace Sys2Proof.Laws

open Sys2Proof.Machine

/-- γ(L) = 2·cos(π / 2^(L+1)). -/
noncomputable def gamma (L : Nat) : ℝ := Real.sqrtTwoAddSeries 0 L

theorem gamma_zero : gamma 0 = 0 := rfl

theorem gamma_succ (L : Nat) : gamma (L + 1) = Real.sqrt (2 + gamma L) := rfl

theorem gamma_nonneg (L : Nat) : 0 ≤ gamma L := Real.sqrtTwoAddSeries_zero_nonneg L

theorem two_add_gamma_pos (L : Nat) : 0 < 2 + gamma L := by linarith [gamma_nonneg L]

theorem gamma_succ_pos (L : Nat) : 0 < gamma (L + 1) := Real.sqrt_pos.mpr (two_add_gamma_pos L)

theorem gamma_succ_mul_self (L : Nat) : gamma (L + 1) * gamma (L + 1) = 2 + gamma L :=
  Real.mul_self_sqrt (two_add_gamma_pos L).le

theorem gamma_eq_cos (L : Nat) : gamma L = 2 * Real.cos (Real.pi / 2 ^ (L + 1)) := by
  rw [Real.cos_pi_over_two_pow]; unfold gamma; ring

/-- The real number that a number of level L stands for. -/
noncomputable def surdVal : (L : Nat) → Surd L → ℝ
  | 0, a => ((show Int from a) : ℝ)
  | L + 1, a => surdVal L a.1 + surdVal L a.2 * gamma (L + 1)

theorem surdVal_zero (a : Surd 0) : surdVal 0 a = ((show Int from a) : ℝ) := rfl

theorem surdVal_succ (L : Nat) (a : Surd (L + 1)) :
    surdVal (L + 1) a = surdVal L a.1 + surdVal L a.2 * gamma (L + 1) := rfl

theorem surdVal_int (L : Nat) (z : Int) : surdVal L (surdInt L z) = z := by
  induction L generalizing z with
  | zero => rfl
  | succ L ih =>
    show surdVal L (surdInt L z) + surdVal L (surdInt L 0) * gamma (L + 1) = z
    simp [ih]

theorem surdVal_add (L : Nat) (a b : Surd L) : surdVal L (surdAdd L a b) = surdVal L a + surdVal L b := by
  induction L with
  | zero => exact Int.cast_add _ _
  | succ L ih =>
    show surdVal L (surdAdd L a.1 b.1) + surdVal L (surdAdd L a.2 b.2) * gamma (L + 1) = _
    rw [ih, ih, surdVal_succ, surdVal_succ]; ring

theorem surdVal_sub (L : Nat) (a b : Surd L) : surdVal L (surdSub L a b) = surdVal L a - surdVal L b := by
  induction L with
  | zero => exact Int.cast_sub _ _
  | succ L ih =>
    show surdVal L (surdSub L a.1 b.1) + surdVal L (surdSub L a.2 b.2) * gamma (L + 1) = _
    rw [ih, ih, surdVal_succ, surdVal_succ]; ring

theorem surdVal_scale (L : Nat) (z : Int) (a : Surd L) : surdVal L (surdScale L z a) = z * surdVal L a := by
  induction L with
  | zero => exact Int.cast_mul _ _
  | succ L ih =>
    show surdVal L (surdScale L z a.1) + surdVal L (surdScale L z a.2) * gamma (L + 1) = _
    rw [ih, ih, surdVal_succ]; ring

theorem surdVal_mulGamma (L : Nat) (a : Surd L) : surdVal L (surdMulGamma L a) = gamma L * surdVal L a := by
  induction L with
  | zero =>
    rw [gamma_zero, zero_mul]
    exact Int.cast_zero
  | succ L ih =>
    show surdVal L (surdAdd L (surdAdd L a.2 a.2) (surdMulGamma L a.2)) + surdVal L a.1 * gamma (L + 1) = _
    rw [surdVal_add, surdVal_add, ih, surdVal_succ]
    linear_combination -surdVal L a.2 * gamma_succ_mul_self L

theorem surdVal_mulGammaSq (L : Nat) (a : Surd L) :
    surdVal L (surdMulGammaSq L a) = gamma (L + 1) * gamma (L + 1) * surdVal L a := by
  rw [gamma_succ_mul_self]
  simp only [surdMulGammaSq, surdVal_add, surdVal_mulGamma]; ring

theorem surdVal_mul (L : Nat) (a b : Surd L) : surdVal L (surdMul L a b) = surdVal L a * surdVal L b := by
  induction L with
  | zero => exact Int.cast_mul _ _
  | succ L ih =>
    show surdVal L (surdAdd L (surdMul L a.1 b.1) (surdMulGammaSq L (surdMul L a.2 b.2))) +
      surdVal L (surdAdd L (surdMul L a.1 b.2) (surdMul L a.2 b.1)) * gamma (L + 1) = _
    rw [surdVal_add, surdVal_add, surdVal_mulGammaSq, ih, ih, ih, ih, surdVal_succ, surdVal_succ]; ring

theorem surdVal_gamma (L : Nat) : surdVal L (surdGamma L) = gamma L := by
  simp [surdGamma, surdVal_mulGamma, surdVal_int]

/-- `s` is the sign of `r`. -/
def IsSign (s : Int) (r : ℝ) : Prop := 0 < r ∧ s = 1 ∨ r = 0 ∧ s = 0 ∨ r < 0 ∧ s = -1

theorem isSign_int (z : Int) : IsSign (Int.sign z) z := by
  rcases lt_trichotomy z 0 with h | h | h
  · exact .inr (.inr ⟨by exact_mod_cast h, Int.sign_eq_neg_one_of_neg h⟩)
  · subst h; exact .inr (.inl ⟨by simp, rfl⟩)
  · exact .inl ⟨by exact_mod_cast h, Int.sign_eq_one_of_pos h⟩

/-- The sign of a + b·g for g > 0 from the signs of a, b and a² - g²·b². -/
theorem isSign_combine {a b g : ℝ} {sa sb sd : Int} (hg : 0 < g) (ha : IsSign sa a) (hb : IsSign sb b)
    (hd : IsSign sd (a * a - g * g * (b * b))) :
    IsSign (if sa = sb then sa else if sa = 0 then sb else if sb = 0 then sa else sa * sd) (a + b * g) := by
  rcases ha with ⟨ha, rfl⟩ | ⟨ha, rfl⟩ | ⟨ha, rfl⟩ <;> rcases hb with ⟨hb, rfl⟩ | ⟨hb, rfl⟩ | ⟨hb, rfl⟩
  · exact .inl ⟨by positivity, by norm_num⟩
  · exact .inl ⟨by simp [hb, ha], by norm_num⟩
  · have hbg : b * g < 0 := mul_neg_of_neg_of_pos hb hg
    rcases hd with ⟨hd, rfl⟩ | ⟨hd, rfl⟩ | ⟨hd, rfl⟩
    · exact .inl ⟨by nlinarith, by norm_num⟩
    · refine .inr (.inl ⟨?_, by norm_num⟩)
      have : (a + b * g) * (a - b * g) = 0 := by linear_combination hd
      rcases mul_eq_zero.mp this with h | h
      · exact h
      · nlinarith
    · exact .inr (.inr ⟨by nlinarith, by norm_num⟩)
  · exact .inl ⟨by rw [ha, zero_add]; positivity, by norm_num⟩
  · exact .inr (.inl ⟨by simp [ha, hb], by norm_num⟩)
  · exact .inr (.inr ⟨by rw [ha, zero_add]; exact mul_neg_of_neg_of_pos hb hg, by norm_num⟩)
  · have hbg : 0 < b * g := by positivity
    rcases hd with ⟨hd, rfl⟩ | ⟨hd, rfl⟩ | ⟨hd, rfl⟩
    · exact .inr (.inr ⟨by nlinarith, by norm_num⟩)
    · refine .inr (.inl ⟨?_, by norm_num⟩)
      have : (a + b * g) * (a - b * g) = 0 := by linear_combination hd
      rcases mul_eq_zero.mp this with h | h
      · exact h
      · nlinarith
    · exact .inl ⟨by nlinarith, by norm_num⟩
  · exact .inr (.inr ⟨by simp [hb, ha], by norm_num⟩)
  · exact .inr (.inr ⟨by nlinarith [mul_neg_of_neg_of_pos hb hg], by norm_num⟩)

/-- The sign test is right. -/
theorem surdSign_isSign (L : Nat) (a : Surd L) : IsSign (surdSign L a) (surdVal L a) := by
  induction L with
  | zero => exact isSign_int _
  | succ L ih =>
    have hd := ih (surdSub L (surdMul L a.1 a.1) (surdMulGammaSq L (surdMul L a.2 a.2)))
    rw [surdVal_sub, surdVal_mul, surdVal_mulGammaSq, surdVal_mul] at hd
    exact isSign_combine (gamma_succ_pos L) (ih a.1) (ih a.2) hd

theorem surdSign_nonneg_iff (L : Nat) (a : Surd L) : 0 ≤ surdSign L a ↔ 0 ≤ surdVal L a := by
  rcases surdSign_isSign L a with ⟨h, hs⟩ | ⟨h, hs⟩ | ⟨h, hs⟩ <;> rw [hs]
  · simp [h.le]
  · simp [h]
  · simp [h]

theorem surdSign_pos_iff (L : Nat) (a : Surd L) : 0 < surdSign L a ↔ 0 < surdVal L a := by
  rcases surdSign_isSign L a with ⟨h, hs⟩ | ⟨h, hs⟩ | ⟨h, hs⟩ <;> rw [hs]
  · simp [h]
  · simp [h]
  · simp [h.le]

/-- The angle of the table's entry j. -/
noncomputable def tableAngle (L j : Nat) : ℝ := 2 * Real.pi * j / 2 ^ (L + 2)

theorem gamma_eq_cos_angle (L : Nat) : gamma L = 2 * Real.cos (tableAngle L 1) := by
  rw [gamma_eq_cos, tableAngle, pow_succ (2 : ℝ) (L + 1)]
  congr 2
  push_cast
  field_simp

/-- The recurrence of the cosines of equidistant angles. -/
theorem cos_recurrence (L j : Nat) :
    gamma L * (2 * Real.cos (tableAngle L (j + 1))) - 2 * Real.cos (tableAngle L j) =
      2 * Real.cos (tableAngle L (j + 2)) := by
  have h2 : tableAngle L (j + 2) = tableAngle L (j + 1) + tableAngle L 1 := by
    unfold tableAngle; push_cast; ring
  have h0 : tableAngle L j = tableAngle L (j + 1) - tableAngle L 1 := by
    unfold tableAngle; push_cast; ring
  rw [gamma_eq_cos_angle, h2, h0, Real.cos_add, Real.cos_sub]; ring

theorem cosFrom_val (L len j : Nat) (a b : Surd L) (ha : surdVal L a = 2 * Real.cos (tableAngle L j))
    (hb : surdVal L b = 2 * Real.cos (tableAngle L (j + 1))) (i : Nat) (hi : i < len) (d : Surd L) :
    surdVal L ((cosFrom L len a b).getD i d) = 2 * Real.cos (tableAngle L (j + i)) := by
  induction len generalizing j a b i with
  | zero => omega
  | succ len ih =>
    cases i with
    | zero => simpa [cosFrom] using ha
    | succ i =>
      have hnext : surdVal L (surdSub L (surdMulGamma L b) a) = 2 * Real.cos (tableAngle L (j + 1 + 1)) := by
        rw [surdVal_sub, surdVal_mulGamma, ha, hb, cos_recurrence]
      have := ih (j + 1) b _ hb hnext i (by omega)
      simpa [cosFrom, Nat.add_assoc, Nat.add_comm 1 i] using this

/-- Entry j of the table is 2·cos(2πj / 2^(L+2)). -/
theorem cosTable_val (L j : Nat) (hj : j < 2 ^ (L + 2)) (d : Surd L) :
    surdVal L ((cosTable L).getD j d) = 2 * Real.cos (tableAngle L j) := by
  have h := cosFrom_val L (2 ^ (L + 2)) 0 (surdInt L 2) (surdGamma L) (by simp [surdVal_int, tableAngle])
    (by rw [surdVal_gamma, gamma_eq_cos_angle]) j hj d
  rwa [Nat.zero_add] at h

/-- The table is read modulo the circle. -/
theorem cos_tableAngle_mod (L j : Nat) : Real.cos (tableAngle L (j % 2 ^ (L + 2))) = Real.cos (tableAngle L j) := by
  have h : tableAngle L j = tableAngle L (j % 2 ^ (L + 2)) + (j / 2 ^ (L + 2) : Nat) * (2 * Real.pi) := by
    have hj : (j : ℝ) = (j % 2 ^ (L + 2) : Nat) + (2 : ℝ) ^ (L + 2) * (j / 2 ^ (L + 2) : Nat) := by
      exact_mod_cast (Nat.mod_add_div j (2 ^ (L + 2))).symm
    have hp : (2 : ℝ) ^ (L + 2) ≠ 0 := by positivity
    have hjmul : (j : ℝ) / 2 ^ (L + 2) =
        (j % 2 ^ (L + 2) : Nat) / 2 ^ (L + 2) + (j / 2 ^ (L + 2) : Nat) := by
      rw [hj]; field_simp
    have e1 : tableAngle L j = 2 * Real.pi * ((j : ℝ) / 2 ^ (L + 2)) := by unfold tableAngle; ring
    rw [e1, hjmul]; unfold tableAngle; ring
  rw [h, Real.cos_add_nat_mul_two_pi]

/-- The sum of a block's samples times the cosines at equidistant angles. -/
theorem tableSum_val (L step phase n : Nat) (x : List Int) :
    surdVal L (tableSum L (cosTable L) step phase n x) =
      ∑ i ∈ Finset.range x.length, ((x.getD i 0 : Int) : ℝ) * (2 * Real.cos (tableAngle L (step * (n + i) + phase))) := by
  induction x generalizing n with
  | nil => simp [tableSum, surdVal_int]
  | cons v x ih =>
    rw [tableSum, surdVal_add, surdVal_scale, cosTable_val L _ (Nat.mod_lt _ (by positivity)), cos_tableAngle_mod, ih,
      List.length_cons, Finset.sum_range_succ']
    simp [Nat.add_assoc, Nat.add_comm 1]
    ring

/-- X[k] of a block of T = 2^m samples (41_spectral.md R103). -/
noncomputable def dft (m : Nat) (x : List Int) (k : Nat) : ℂ :=
  ∑ n ∈ Finset.range x.length, ((x.getD n 0 : Int) : ℂ) * Complex.exp (-(2 * Real.pi * Complex.I * k * n / 2 ^ m))

/-- The angle of term n of X[k]. -/
noncomputable def dftAngle (m k n : Nat) : ℝ := 2 * Real.pi * k * n / 2 ^ m

theorem dft_eq (m : Nat) (x : List Int) (k : Nat) :
    dft m x k = ((∑ n ∈ Finset.range x.length, ((x.getD n 0 : Int) : ℝ) * Real.cos (dftAngle m k n) : ℝ) : ℂ) -
      ((∑ n ∈ Finset.range x.length, ((x.getD n 0 : Int) : ℝ) * Real.sin (dftAngle m k n) : ℝ) : ℂ) * Complex.I := by
  rw [dft, Complex.ofReal_sum, Complex.ofReal_sum, Finset.sum_mul, ← Finset.sum_sub_distrib]
  refine Finset.sum_congr rfl fun n _ => ?_
  have h : -(2 * (Real.pi : ℂ) * Complex.I * k * n / 2 ^ m) = ((-dftAngle m k n : ℝ) : ℂ) * Complex.I := by
    unfold dftAngle; push_cast; ring
  rw [h, Complex.exp_mul_I, ← Complex.ofReal_cos, ← Complex.ofReal_sin, Real.cos_neg, Real.sin_neg]
  push_cast; ring

theorem normSq_dft (m : Nat) (x : List Int) (k : Nat) :
    ‖dft m x k‖ ^ 2 =
      (∑ n ∈ Finset.range x.length, ((x.getD n 0 : Int) : ℝ) * Real.cos (dftAngle m k n)) ^ 2 +
        (∑ n ∈ Finset.range x.length, ((x.getD n 0 : Int) : ℝ) * Real.sin (dftAngle m k n)) ^ 2 := by
  rw [dft_eq, Complex.sq_norm, Complex.normSq_apply]
  generalize (∑ n ∈ Finset.range x.length, ((x.getD n 0 : Int) : ℝ) * Real.cos (dftAngle m k n)) = a
  generalize (∑ n ∈ Finset.range x.length, ((x.getD n 0 : Int) : ℝ) * Real.sin (dftAngle m k n)) = b
  simp
  ring

/-- The table's circle is a whole multiple of the T-th parts of the circle. -/
theorem table_multiple (m : Nat) : 2 ^ (levelOf m + 2) / 2 ^ m * 2 ^ m = 2 ^ (levelOf m + 2) :=
  Nat.div_mul_cancel (pow_dvd_pow 2 (by unfold levelOf; omega))

theorem tableAngle_step (m k n : Nat) :
    tableAngle (levelOf m) (k * (2 ^ (levelOf m + 2) / 2 ^ m) * (0 + n) + 0) = dftAngle m k n := by
  have h : ((2 ^ (levelOf m + 2) / 2 ^ m : Nat) : ℝ) * 2 ^ m = 2 ^ (levelOf m + 2) := by
    exact_mod_cast table_multiple m
  have hm : (2 : ℝ) ^ m ≠ 0 := by positivity
  have hL : (2 : ℝ) ^ (levelOf m + 2) ≠ 0 := by positivity
  unfold tableAngle dftAngle
  rw [div_eq_div_iff hL hm, ← h]
  push_cast
  ring

theorem tableAngle_step_sin (m k n : Nat) :
    Real.cos (tableAngle (levelOf m) (k * (2 ^ (levelOf m + 2) / 2 ^ m) * (0 + n) + 3 * 2 ^ levelOf m)) =
      Real.sin (dftAngle m k n) := by
  have h : tableAngle (levelOf m) (k * (2 ^ (levelOf m + 2) / 2 ^ m) * (0 + n) + 3 * 2 ^ levelOf m) =
      dftAngle m k n - Real.pi / 2 + 2 * Real.pi := by
    rw [← tableAngle_step m k n]
    unfold tableAngle
    rw [pow_add]
    push_cast
    field_simp
    ring
  rw [h, Real.cos_add_two_pi, Real.cos_sub_pi_div_two]

/-- The exact number the engine computes is 4·|X[k]|². -/
theorem energySq4_val (m : Nat) (x : List Int) (k : Nat) :
    surdVal (levelOf m) (energySq4 m x k) = 4 * ‖dft m x k‖ ^ 2 := by
  simp only [energySq4, surdVal_add, surdVal_mul, tableSum_val, normSq_dft, tableAngle_step, tableAngle_step_sin]
  simp only [fun a b : ℝ => (by ring : a * (2 * b) = 2 * (a * b)), ← Finset.mul_sum]
  ring

/-- The threshold test on |X[k]|·num. -/
theorem modulusAtLeast_iff (m : Nat) (x : List Int) (k num q : Nat) :
    modulusAtLeast (levelOf m) (energySq4 m x k) num q = true ↔ (q : ℝ) ≤ ‖dft m x k‖ * num := by
  rw [modulusAtLeast, decide_eq_true_eq, surdSign_nonneg_iff, surdVal_sub, surdVal_scale, energySq4_val, surdVal_int]
  push_cast
  have h0 : 0 ≤ ‖dft m x k‖ * num := by positivity
  have hq : (0 : ℝ) ≤ q := Nat.cast_nonneg q
  constructor
  · intro h; exact abs_le_of_sq_le_sq' (by nlinarith) h0 |>.2
  · intro h; nlinarith [mul_le_mul h h hq h0]

/-- The strict test on |X[k]| at the scale num/den. -/
theorem modulusAbove_iff (m : Nat) (x : List Int) (k num den q : Nat) :
    modulusAbove (levelOf m) (energySq4 m x k) num den q = true ↔ (q : ℝ) * den < ‖dft m x k‖ * num := by
  rw [modulusAbove, decide_eq_true_eq, surdSign_pos_iff, surdVal_sub, surdVal_scale, energySq4_val, surdVal_int]
  push_cast
  have h0 : 0 ≤ ‖dft m x k‖ * num := by positivity
  have hq : (0 : ℝ) ≤ q * den := by positivity
  constructor
  · intro h
    by_contra hc
    have : ‖dft m x k‖ * num ≤ q * den := not_lt.mp hc
    nlinarith [mul_le_mul this this h0 hq]
  · intro h
    nlinarith [mul_lt_mul'' h h hq hq]

/-- The search finds the bound of a threshold test, or its own largest number. -/
theorem largestHolding_eq (F bits q : Nat) (hq : q ≤ F) :
    largestHolding (fun p => decide (p ≤ F)) bits q = min F (q + (2 ^ bits - 1)) := by
  induction bits generalizing q with
  | zero => simp [largestHolding, hq]
  | succ bits ih =>
    have hp : 0 < 2 ^ bits := Nat.two_pow_pos bits
    unfold largestHolding
    by_cases h : q + 2 ^ bits ≤ F
    · simp only [h, decide_true, if_true]
      rw [ih _ h, pow_succ]; omega
    · simp only [h, decide_false, Bool.false_eq_true, if_false]
      rw [ih _ hq, pow_succ]; omega

/-- The scaled magnitude stays in range. -/
theorem scaledMag_le (sw m num den : Nat) (x : List Int) (k : Nat) : scaledMag sw m num den x k ≤ 2 ^ (sw - 1) - 1 :=
  Nat.min_le_left _ _

/-- MAG_REF stays in the magnitude range. -/
theorem magRef_le (sw m : Nat) (x : List Int) (k : Nat) : magRef sw m x k ≤ 2 ^ (sw - 1) - 1 := scaledMag_le _ _ _ _ _ _

/-- What `within` keeps. -/
theorem within_bounds (a err v : Nat) : within a err v ≤ a + err ∧ a ≤ within a err v + err := by
  unfold within
  omega

/-- MAG_FN stays in the magnitude range, whichever it is (41_spectral.md R104, M2). -/
theorem magFn_le (c : Config) (x : List Int) (k : Nat) : magFn c x k ≤ c.magMax := by
  unfold magFn
  split
  · exact magRef_le _ _ _ _
  · unfold magConforming
    split
    · exact Nat.zero_le _
    · split
      · exact Nat.le_refl _
      · exact Nat.min_le_left _ _

/-- Every energy has MAG_W bits (10_state.md R28, 41_spectral.md R107). -/
theorem energies_lt (c : Config) (x : List Int) (i : Fin 7) : tone (energies c x) i < 2 ^ c.magW := by
  unfold energies
  rw [tone_tonesOf]
  split
  · exact Nat.lt_of_le_of_lt (magFn_le c x _) (Nat.sub_lt (Nat.two_pow_pos _) Nat.one_pos)
  · exact Nat.two_pow_pos _

end Sys2Proof.Laws
end

