-- ==== Sys2Proof/Tests/Slice0.lean ====
section
/-! SUPPORT. Tests. Expected values are those of spec/95_test_vectors.md (the section is named) or worked by hand from the rule
named. Then one witness for every obligation that has hypotheses. -/

open Sys2Proof Sys2Proof.Machine

namespace Sys2Proof.Tests

/-! ## Machines for the tests -/

/-- The configuration of program P1: N = T = 4, THRESHOLD = 10 (bins 0, 0, 0, 0, 1, 1, 1). -/
def cfg4 : Config := { Config.default with n := 4, t := 4, threshold := 10 }

/-- IDLE in configuration `c`. -/
def idleAt (c : Config) : State := State.resetWith c

/-- BUFFERING in `cfg4` with the words below CURSOR written. -/
def bufferingAt (cursor : Nat) (buf : Memory) : State :=
  { State.resetWith cfg4 with state := .buffering, cursor := cursor, buf := buf }

/-- PROCESSING in `cfg4` with these words. -/
def processingWith (buf : Memory) (draw : Bool) (trace : List CycleInput) : State :=
  { State.resetWith cfg4 with state := .processing, buf := buf, draw := draw, trace := trace }

/-- The block 100, 0, 0, 0 of program P1. -/
def block100 : Memory := [(0, 100), (1, 0), (2, 0), (3, 0)]

/-- HALTED with TIMER_INIT. -/
def halted3 : State := { State.resetWith cfg4 with state := .halted, diag := .timerInit }

/-- One answer's state, to look at its fields. -/
def view {α : Type} (f : State → α) (r : Result) : Option α :=
  match r with
  | .next s => some (f s)
  | .fault _ => none
  | .refused _ => none

/-! ## Well-formed terms -/

theorem test_wf_tick_low : ¬(Instr.tick (-32769)).WellFormed 16 := by decide
theorem test_wf_tick_high : ¬(Instr.tick 32768).WellFormed 16 := by decide
theorem test_wf_tick_ends : (Instr.tick (-32768)).WellFormed 16 ∧ (Instr.tick 32767).WellFormed 16 := by decide
theorem test_wf_startTick_low : ¬(Instr.startTick true true (-3)).WellFormed 2 := by decide
theorem test_wf_startTick_high : ¬(Instr.startTick true true 2).WellFormed 2 := by decide
theorem test_wf_config_default : Config.default.WellFormed := by decide
theorem test_wf_config_sampleW : ¬Config.WellFormed { Config.default with sampleW := 1, threshold := 0 } := by decide
theorem test_wf_config_n_one : ¬Config.WellFormed { Config.default with n := 1 } := by decide
theorem test_wf_config_n_pow : ¬Config.WellFormed { Config.default with n := 3 } := by decide
theorem test_wf_config_threshold : ¬Config.WellFormed { Config.default with threshold := 32768 } := by decide
theorem test_wf_config_scale_den : ¬Config.WellFormed { Config.default with magFn := .conforming 0 1 0 5 } := by decide
theorem test_wf_config_scale_zero : ¬Config.WellFormed { Config.default with magFn := .conforming 0 0 1 5 } := by decide
theorem test_wf_config_error : ¬Config.WellFormed { Config.default with magFn := .conforming 0 1 1024 32767 } := by decide
theorem test_wf_config_conforming : Config.WellFormed { Config.default with magFn := .conforming 0 1 1024 32766 } := by decide

/-! ## Decoding: words written bit by bit from 30_encoding.md R62 -/

theorem test_decode_reset : decode 16 0b1_0_0_1_1_0000000000000000 = .instr .reset := by decide
theorem test_decode_start : decode 16 0b0_1_0_0_1_0000000000000000 = .instr (.start false true) := by decide
theorem test_decode_startTick : decode 16 0b0_1_1_1_0_0000000000001001 = .instr (.startTick true false 9) := by decide
theorem test_decode_tick : decode 16 0b0_0_1_1_1_1111111001110000 = .instr (.tick (-400)) := by decide
theorem test_decode_nop : decode 16 0b0_0_0_1_1_0000000000000000 = .instr .nop := by decide
theorem test_decode_narrow : decode 2 0b0_0_1_0_0_10 = .instr (.tick (-2)) := by decide
theorem test_decode_too_wide : decode 16 0x200000 = .rejected .widerThanWord := by decide
/-- 2.1, the hex column. -/
theorem test_encode_vectors :
    encode 16 .reset = some 0x130000 ∧ encode 16 (.start false false) = some 0x080000 ∧
      encode 16 (.startTick true true 9) = some 0x0F0009 ∧ encode 16 (.tick (-400)) = some 0x07FE70 ∧
      encode 16 .nop = some 0x030000 ∧ encode 16 .engineDone = none := by decide
/-- The rows of spec/opcode_table.json at their "match" values. -/
theorem test_decodeTableWord :
    decodeTableWord 24 0x100000 = some .reset ∧ decodeTableWord 24 0x080000 = some (.start false false) ∧
      decodeTableWord 24 0x0C0000 = some (.startTick false false 0) ∧ decodeTableWord 24 0x040000 = some (.tick 0) ∧
      decodeTableWord 24 0 = some .nop := by decide
theorem test_trace_notation :
    assemble 16 [.wait 2, .ticks [100, -1]] =
      some [⟨0x030000, false⟩, ⟨0x030000, true⟩, ⟨0x070064, false⟩, ⟨0x07FFFF, false⟩] := by decide

/-! ## One step on a small state -/

theorem test_reset_memory_canonical : Memory.wf State.reset.cfg.n State.reset.cfg.sampleW State.reset.buf = true := by decide
theorem test_memory_order : writeWord [(0, 5), (3, 7)] 2 9 = [(0, 5), (2, 9), (3, 7)] := by decide
/-- 2.8: BUFFERING, CURSOR = 3. -/
theorem test_reset_from_buffering :
    view (fun s => (s.state, s.cursor, tickEn s)) (exec .reset (bufferingAt 3 block100)) = some (.idle, 0, false) := by decide
/-- 2.8: `RESET /done` in PROCESSING. -/
theorem test_reset_aborts :
    view (fun s => (s.state, s.detValid)) (step (processingWith block100 false [⟨0x130000, true⟩])) = some (.idle, false) := by
  decide
/-- 2.2: timer_ok = 0 and irq_ok = 0. -/
theorem test_start_first_check :
    view (fun s => (s.state, s.diag)) (exec (.start false false) State.reset) = some (.halted, .timerInit) := by decide
/-- 2.2: T = 3, N = 4. -/
theorem test_start_xform_before_size :
    view (fun s => (s.state, s.diag)) (exec (.start true true) (idleAt { cfg4 with t := 3 })) = some (.halted, .xformInit) := by
  decide
/-- 2.1: BUFFERING, CURSOR = 2, `START_TICK 5`. -/
theorem test_startTick_stores :
    view (fun s => (s.state, s.cursor, readWord s.buf 2)) (exec (.startTick true true 5) (bufferingAt 2 [])) =
      some (.buffering, 3, some 5) := by decide
/-- 2.1: HALTED, DIAG = 3, `START_TICK 1`. -/
theorem test_startTick_halted :
    view (fun s => (s.state, s.diag)) (exec (.startTick true true 1) halted3) = some (.halted, .timerInit) := by decide
/-- 2.3: CURSOR = 2, `TICK -1`. -/
theorem test_tick_negative :
    view (fun s => (s.cursor, readWord s.buf 2)) (exec (.tick (-1)) (bufferingAt 2 [])) = some (3, some 0xFFFF) := by decide
/-- 2.3: CURSOR = 3, `TICK 0`. -/
theorem test_tick_fills :
    view (fun s => (s.state, s.cursor, readWord s.buf 3)) (exec (.tick 0) (bufferingAt 3 [])) = some (.processing, 0, some 0) := by
  decide
/-- 2.7: BUFFERING, det_valid = 1, `NOP`. -/
theorem test_nop_clears :
    view (fun s => (s.state, s.detValid, s.detHit)) (exec .nop { bufferingAt 0 [] with detValid := true, detHit := true }) =
      some (.buffering, false, true) := by decide
/-- P1, line 9. -/
theorem test_nop_done :
    view (fun s => (s.state, s.detValid, detPorts s)) (exec .nop (processingWith block100 true [])) =
      some (.buffering, true, (true, 0, 0, 0x31)) := by decide +kernel
/-- P2, line 13: every energy equals THRESHOLD. -/
theorem test_engineDone_at_threshold :
    view (fun s => (s.state, s.detValid, detPorts s)) (exec .engineDone (processingWith (writeWord block100 0 40) false [])) =
      some (.buffering, true, (false, 0, 0, 0x00)) := by decide +kernel

/-- 10_state.md R23: an unwritten word of BUF is any value; the engine runs on it. -/
theorem test_engineDone_unwritten :
    view (fun s => s.state) (exec .engineDone (processingWith [(0, 100)] false [])) = some .buffering := rfl
/-- 41_spectral.md R104, M5: at the scales 1/4 and 2/4 the block 0, 30, 0, -30 of 2.5 (|X[1]| = 60) has 15 and 30 at bin 1, and an
error of 0 leaves no choice. -/
theorem test_magFn_scales :
    scaledMag 16 2 1 4 [0, 30, 0, -30] 1 = 15 ∧ scaledMag 16 2 2 4 [0, 30, 0, -30] 1 = 30 ∧ ∀ v, within 15 0 v = 15 :=
  ⟨by decide +kernel, by decide +kernel, fun v => by unfold within; omega⟩
/-- 41_spectral.md R104, M4. -/
theorem test_magFn_silence : magFn { cfg4 with magFn := .conforming 7 1 4 9 } [0, 0, 0, 0] 1 = 0 := rfl

/-! ## Spectral engine and classifier -/

/-- 2.4. -/
theorem test_bins : bins cfg4 = ⟨0, 0, 0, 0, 1, 1, 1⟩ := by decide
/-- 1.4: exact halves round up. -/
theorem test_bin_half_up : binIndex 16000 16 500 = 1 ∧ binIndex 16000 16 1499 = 1 ∧ binIndex 16000 16 7500 = 8 := by decide
/-- 2.5, T = 4. -/
theorem test_magRef :
    magRef 16 2 [41, 0, 0, 0] 0 = 10 ∧ magRef 16 2 [0, 30, 0, -30] 1 = 15 ∧
      magRef 16 2 [-32768, -32768, -32768, -32768] 0 = 32767 ∧ magRef 16 2 [32767, 32767, 32767, 32767] 0 = 32767 := by decide +kernel
/-- By hand from R105, T = 8, k = 1: |X[1]| = |100·exp(-iπ/4) + 100| = 200·cos(π/8) = 184.77..., over 8 is 23.09.... -/
theorem test_magRef_irrational : magRef 16 3 [100, 100, 0, 0, 0, 0, 0, 0] 1 = 23 := by decide +kernel
/-- 2.6. -/
theorem test_classify :
    classify { cfg4 with threshold := 1000 } ⟨2000, 1999, 0, 0, 1200, 1300, 1300⟩ = .hit 0 1 0x32 ∧
      classify { cfg4 with threshold := 100 } ⟨0, 0, 0, 101, 0, 0, 101⟩ = .hit 3 2 0x23 ∧
      classify cfg4 ⟨0, 0, 0, 0, 15, 15, 0⟩ = .noTone := by decide

/-! ## Witnesses: a concrete state and operands that meet an obligation's hypotheses together -/

/-- The state an instruction answers with, for naming it in a witness. -/
def after (r : Result) : State :=
  match r with
  | .next s => s
  | .fault _ => State.reset
  | .refused _ => State.reset

/-- BUFFERING in `cfg4` meets the invariants. -/
theorem invariants_buffering : Invariants (bufferingAt 3 block100) :=
  ⟨by decide, by decide, by decide, by decide, by decide, by decide, by decide, by decide, by decide, by decide, by decide,
    by decide, by decide⟩

/-- PROCESSING in `cfg4` meets the invariants, its inputs apart. -/
theorem invariants_processing_idle_inputs : Invariants (processingWith block100 false []) :=
  ⟨by decide, by decide, by decide, by decide, by decide, by decide, by decide, by decide, by decide, by decide, by decide,
    by decide, by decide⟩

/-- The same with inputs of WW bits to come. -/
theorem invariants_processing (trace : List CycleInput) (h : ∀ c ∈ trace, c.word < 2 ^ 21) :
    Invariants (processingWith block100 false trace) :=
  { invariants_processing_idle_inputs with inputs := h }

theorem witness_ResetRestoresEveryRegister :
    0x100000 < 2 ^ wordWidth 16 ∧ rstBit 16 0x100000 = true ∧ 0x1FFFFF < 2 ^ wordWidth 16 ∧ rstBit 16 0x1FFFFF = true := by
  decide

theorem witness_ResetLeavesEveryWordOfBufAFreeValue :
    exec .reset (bufferingAt 3 block100) = .next (resetBlock (bufferingAt 3 block100)) ∧
      bufWord (bufferingAt 3 block100) 0 = 100 := ⟨rfl, by decide⟩

theorem witness_ResetAbortsTheAnalysis :
    let s := processingWith block100 false [⟨0x130000, true⟩]
    s.state = .processing ∧ (nextInput s).word < 2 ^ wordWidth s.cfg.sampleW ∧
      rstBit s.cfg.sampleW (nextInput s).word = true ∧
      exec (.start true true) (after (step s)) = .next (enterBuffering (after (step s))) := ⟨rfl, by decide, by decide, rfl⟩

/-- One configuration for each of the five clauses, T at both ends of T_SUPPORTED. -/
theorem witness_StartChecksInOrderThenBuffers :
    let c1 := { cfg4 with t := 3 }
    let c2 := { cfg4 with n := 8 }
    let c3 := { cfg4 with fs := 0 }
    let c5 := { cfg4 with n := 65536, t := 65536 }
    let c6 := { cfg4 with n := 2, t := 2 }
    (∀ c ∈ [c1, c2, c3, cfg4, c5, c6], (idleAt c).state = .idle ∧ legalCodes (idleAt c) = true) ∧
      (Instr.start true true = .start true true ∧ Instr.startTick true true 9 = .startTick true true 9) ∧
      (¬∃ k ∈ c1.tSupportedLog, c1.t = 2 ^ k) ∧ ((∃ k ∈ c2.tSupportedLog, c2.t = 2 ^ k) ∧ c2.n ≠ c2.t) ∧
      ((∃ k ∈ c3.tSupportedLog, c3.t = 2 ^ k) ∧ c3.n = c3.t ∧ (c3.fs = 0 ∨ true = false)) ∧
      ∀ c ∈ [cfg4, c5, c6], (∃ k ∈ c.tSupportedLog, c.t = 2 ^ k) ∧ c.n = c.t ∧ c.fs ≠ 0 := by decide

theorem witness_OnlyStartRecordsAFaultAndTheFirst :
    let s := State.reset
    exec (.start true false) s = .next (raiseStartupFault .irqReg s) ∧ (raiseStartupFault .irqReg s).diag ≠ s.diag ∧
      exec .reset halted3 = .next (resetBlock halted3) ∧ (resetBlock halted3).diag ≠ halted3.diag := ⟨rfl, by decide, rfl, by decide⟩

theorem witness_StartupFaultEntryIsPrecise :
    (idleAt cfg4).state = .idle ∧ legalCodes (idleAt cfg4) = true ∧
      startupCheck { cfg4 with t := 3 } true true = some .xformInit ∧
      startupCheck { cfg4 with n := 8 } false false = some .sizeMismatch ∧
      startupCheck { cfg4 with fs := 0 } true false = some .timerInit ∧ startupCheck cfg4 true false = some .irqReg := by decide

theorem witness_StartHasNoEffectOutsideIdle :
    (bufferingAt 3 block100).state ≠ .idle ∧ halted3.state = .halted ∧ exec .reset halted3 = .next (resetBlock halted3) ∧
      (resetBlock halted3).state ≠ .halted := ⟨by decide, rfl, rfl, by decide⟩

theorem witness_StartTickInIdleDropsTheTick : State.reset.state = .idle ∧ legalCodes State.reset = true := by decide

theorem witness_HaltedIsLeftOnlyByReset :
    halted3.state = .halted ∧ legalCodes halted3 = true ∧ exec .reset halted3 = .next (resetBlock halted3) ∧
      (resetBlock halted3).state ≠ .halted := ⟨rfl, by decide, rfl, by decide⟩

theorem witness_NopClearsOnlyTheStrobe :
    legalCodes State.reset = true ∧ State.reset.state = .idle ∧ legalCodes (bufferingAt 1 block100) = true ∧
      (bufferingAt 1 block100).state = .buffering ∧ legalCodes halted3 = true ∧ halted3.state = .halted := by decide

theorem witness_DroppedTickContributesNothing :
    State.reset.state ≠ .buffering ∧ exec (.tick 5) State.reset = .next (clearValid State.reset) := ⟨by decide, rfl⟩

/-- Both ends of CURSOR and both ends of the sample format. -/
theorem witness_AcceptedTickStoresTheSampleAtTheCursor :
    (∀ k ≤ 3, (bufferingAt k block100).state = .buffering ∧ legalCodes (bufferingAt k block100) = true ∧
      (bufferingAt k block100).cursor < cfg4.n) ∧
      1 ≤ cfg4.sampleW ∧ (bufferingAt 3 block100).cursor = cfg4.n - 1 ∧ (bufferingAt 0 []).cursor ≠ cfg4.n - 1 ∧
      SampleInRange cfg4.sampleW (-32768) ∧ SampleInRange cfg4.sampleW 32767 := by decide

theorem witness_SamplesAreStoredUnchanged :
    1 ≤ 16 ∧ SampleInRange 16 (-32768) ∧ SampleInRange 16 32767 ∧ SampleInRange 1 (-1) ∧ SampleInRange 1 0 := by decide

theorem witness_OnlyTheFillingWriteEntersProcessing :
    let s := bufferingAt 3 block100
    let t := after (exec (.tick 7) s)
    exec (.tick 7) s = .next t ∧ s.state = .buffering ∧ t.state = .processing := ⟨rfl, rfl, rfl⟩

theorem witness_WriteOutsideTheBufferStops :
    (bufferingAt 4 block100).state = .buffering ∧ legalCodes (bufferingAt 4 block100) = true ∧
      (bufferingAt 4 block100).cfg.n ≤ (bufferingAt 4 block100).cursor := by decide

theorem witness_DecodeInvertsEncode :
    1 ≤ 16 ∧ (Instr.tick (-32768)).WellFormed 16 ∧ Instr.tick (-32768) ≠ .engineDone ∧
      (Instr.startTick false true 32767).WellFormed 16 ∧ (Instr.start true false).WellFormed 16 ∧ Instr.reset.WellFormed 16 ∧
      Instr.nop.WellFormed 16 ∧ decode 16 0x078000 = .instr (.tick (-32768)) := by decide

/-- The least and the greatest word of each row. -/
theorem witness_RstAboveStartAboveTick :
    (0x1FFFFF < 2 ^ wordWidth 16 ∧ rstBit 16 0x100000 = true ∧ rstBit 16 0x1FFFFF = true) ∧
      (∀ w ∈ [0x080000, 0x0BFFFF], rstBit 16 w = false ∧ startBit 16 w = true ∧ tickBit 16 w = false) ∧
      (∀ w ∈ [0x0C0000, 0x0FFFFF], rstBit 16 w = false ∧ startBit 16 w = true ∧ tickBit 16 w = true) ∧
      (∀ w ∈ [0x040000, 0x07FFFF], rstBit 16 w = false ∧ startBit 16 w = false ∧ tickBit 16 w = true) ∧
      ∀ w ∈ [0x000000, 0x03FFFF], rstBit 16 w = false ∧ startBit 16 w = false ∧ tickBit 16 w = false := by decide

theorem witness_StepRunsTheDecodedOperation :
    let s := { State.reset with trace := [⟨0x0B0000, false⟩] }
    decode s.cfg.sampleW (nextInput s).word = .instr (.start true true) ∧ s.trace = ⟨0x0B0000, false⟩ :: [] ∧
      State.reset.trace = [] := by decide

theorem witness_PlacedWordIsTheNextWord : 0x1FFFFF < 2 ^ 24 ∧ 0x1FFFFF < 2 ^ wordWidth State.reset.cfg.sampleW := by decide

theorem witness_NumbersWiderThanAWordAreRefused :
    let s := { State.reset with trace := [⟨0x200000, false⟩] }
    2 ^ wordWidth s.cfg.sampleW ≤ (nextInput s).word := by decide

theorem witness_PseudoOperationsExpand : 1 ≤ 1 ∧ 0 < 1 ∧ 1 ≤ 3 ∧ 2 < 3 := by decide

theorem witness_BinIndexRoundsHalfUp : 0 < 16000 ∧ 0 < 16 := by decide

/-- T = 16, FS = 16000, FREQ[5] = 7000, FREQ[6] = 7500 (2.4): the last valid bin and the first invalid one. -/
theorem witness_EnergyIsTheMagnitudeAtTheBin :
    let f : Tones Nat := ⟨1000, 2000, 3000, 4000, 5000, 7000, 7500⟩
    binIndex 16000 16 (tone f 5) < 16 / 2 ∧ 16 / 2 ≤ binIndex 16000 16 (tone f 6) := by decide

theorem witness_CoincidingBinsSelectTheLowerIndex :
    tone (bins cfg4) 0 = tone (bins cfg4) 3 ∧ (0 : Fin 4) < 1 ∧ rowGroup (bins cfg4) 0 = rowGroup (bins cfg4) 1 ∧
      (1 : Fin 3) < 2 ∧ colGroup (bins cfg4) 1 = colGroup (bins cfg4) 2 := by decide

theorem witness_MagRefIsTheFlooredModulus :
    [100, 0, 0, -32768].length = 2 ^ 2 ∧ ∀ v ∈ [100, 0, 0, (-32768 : Int)], SampleInRange 16 v := by decide

/-- The saturating block of 2.5, for MAG_REF and for a conforming implementation at scale 2/4. -/
theorem witness_EveryMagFnHasTheNamedProperties :
    let x : List Int := [-32768, -32768, -32768, -32768]
    cfg4.t = 2 ^ 2 ∧ x.length = cfg4.t ∧ [0, 0, 0, 0].length = cfg4.t ∧ (∀ v ∈ [0, 0, 0, (0 : Int)], v = 0) ∧
      cfg4.magFn = .reference ∧ { cfg4 with magFn := .conforming 0 2 4 9 }.magFn = .conforming 0 2 4 9 ∧
      (cfg4.magMax : ℝ) <
        ‖∑ n ∈ Finset.range (2 ^ 2),
          ((x.getD n 0 : Int) : ℂ) * Complex.exp (-(2 * Real.pi * Complex.I * (0 : ℕ) * n / (2 ^ 2 : ℕ)))‖ * (1 : ℕ) / (4 : ℕ) ∧
      (cfg4.magMax : ℝ) <
        ‖∑ n ∈ Finset.range (2 ^ 2),
          ((x.getD n 0 : Int) : ℂ) * Complex.exp (-(2 * Real.pi * Complex.I * (0 : ℕ) * n / (2 ^ 2 : ℕ)))‖ * (2 : ℕ) / (4 : ℕ) := by
  refine ⟨rfl, rfl, rfl, by decide, rfl, rfl, ?_, ?_⟩ <;>
    norm_num [Finset.sum_range_succ, cfg4, Config.default, Config.magMax]

theorem witness_EngineStepFollowsTheDraw :
    (∀ d, (processingWith block100 d []).state = .processing ∧ (processingWith block100 d []).draw = d) ∧
      legalCodes (processingWith block100 true []) = true ∧ configAdmitted cfg4 = true ∧
      Instr.nop ≠ .reset ∧ Instr.nop ≠ .engineDone := by decide

/-- A block with a symbol, and one without (P1 and P2). -/
theorem witness_EngineDoneLatchesTheResult :
    (processingWith block100 true []).state = .processing ∧ legalCodes (processingWith block100 true []) = true ∧
      configAdmitted cfg4 = true ∧ [100, 0, 0, 0] = readBlock (processingWith block100 true []) cfg4.t ∧
      pickGroup (rowGroup (energies cfg4 [100, 0, 0, 0])) cfg4.threshold = some 0 ∧
      pickGroup (colGroup (energies cfg4 [100, 0, 0, 0])) cfg4.threshold = some 0 ∧
      [40, 0, 0, 0] = readBlock (processingWith (writeWord block100 0 40) true []) cfg4.t ∧
      pickGroup (rowGroup (energies cfg4 [40, 0, 0, 0])) cfg4.threshold = none := by decide +kernel

theorem witness_AnalysisEndsAtTheDrawWithTheBlocksResult :
    let s := processingWith block100 false [⟨0x030000, false⟩, ⟨0x0F0009, false⟩, ⟨0x070005, true⟩]
    Invariants s ∧ s.state = .processing ∧
      s.trace = [0x030000, 0x0F0009].map (fun w => ⟨w, false⟩) ++ [⟨0x070005, true⟩] ∧
      ∀ w ∈ [0x070005, 0x030000, 0x0F0009], rstBit s.cfg.sampleW w = false :=
  ⟨invariants_processing _ (by decide), rfl, rfl, by decide⟩

theorem witness_EngineDoneOutsideProcessingIsRefused : legalCodes State.reset = true ∧ State.reset.state ≠ .processing := by
  decide

/-- N ≠ T; and an admitted configuration with BUF[3], the last word, unwritten. -/
theorem witness_EngineStopsOnlyOnAnUnadmittedConfiguration :
    let s := processingWith [(0, 1), (1, 2), (2, 3)] true []
    s.state = .processing ∧ legalCodes s = true ∧ Instr.engineDone ≠ .reset ∧ configAdmitted { cfg4 with n := 8 } = false ∧
      configAdmitted s.cfg = true ∧ readWord s.buf 3 = none := by decide

theorem witness_ReservedCodesHaveNoStepButReset :
    legalCodes { State.reset with state := .printing } = false ∧ legalCodes { State.reset with diag := .reserved5 } = false ∧
      Instr.nop ≠ .reset := by decide

/-- The vectors P-1 to P-5 of 1.1, one for each law. -/
theorem witness_ClassifierLaws :
    let e1 : Tones Nat := ⟨0, 0, 1500, 0, 0, 0, 1200⟩
    let e2 : Tones Nat := ⟨1000, 999, 0, 1000, 1000, 0, 5⟩
    let e3 : Tones Nat := ⟨1001, 0, 0, 0, 1001, 0, 0⟩
    let e4 : Tones Nat := ⟨0, 2000, 0, 2000, 1500, 1500, 0⟩
    let e5 : Tones Nat := ⟨3000, 0, 0, 0, 10, 20, 30⟩
    let e6 : Tones Nat := ⟨0, 0, 0, 0, 0, 1001, 0⟩
    (1000 < rowGroup e1 2 ∧ 1000 < colGroup e1 2 ∧ (∀ j, j ≠ 2 → rowGroup e1 j ≤ 1000) ∧ ∀ j, j ≠ 2 → colGroup e1 j ≤ 1000) ∧
      ((∀ i, tone e2 i ≤ 1000) ∧ rowGroup e2 0 = 1000 ∧ colGroup e2 0 = 1000) ∧
      (rowGroup e3 0 = 1000 + 1 ∧ (∀ j, j ≠ 0 → rowGroup e3 j ≤ 1000) ∧ colGroup e3 0 = 1000 + 1 ∧
        ∀ j, j ≠ 0 → colGroup e3 j ≤ 1000) ∧
      ((1 : Fin 4) < 3 ∧ 1000 < rowGroup e4 1 ∧ rowGroup e4 1 = rowGroup e4 3 ∧ (∀ j, rowGroup e4 j ≤ rowGroup e4 1) ∧
        ∀ j, j < 1 → rowGroup e4 j < rowGroup e4 1) ∧
      ((0 : Fin 3) < 1 ∧ 1000 < colGroup e4 0 ∧ colGroup e4 0 = colGroup e4 1 ∧ (∀ j, colGroup e4 j ≤ colGroup e4 0) ∧
        ∀ j, j < 0 → colGroup e4 j < colGroup e4 0) ∧
      ((∃ r, 1000 < rowGroup e5 r) ∧ ∀ k, colGroup e5 k ≤ 1000) ∧
      (∃ k, 1000 < colGroup e6 k) ∧ ∀ r, rowGroup e6 r ≤ 1000 := by decide

theorem witness_ResetMeetsTheInvariants : cfg4.WellFormed ∧ Config.WellFormed { cfg4 with n := 2, sampleW := 2, threshold := 1 } := by
  decide

theorem witness_EveryStepKeepsTheInvariants :
    let s := processingWith block100 false [⟨0x030000, true⟩]
    Invariants s ∧ step s = .next (after (step s)) := ⟨invariants_processing _ (by decide), rfl⟩

theorem witness_RunsNeverStop : Invariants (bufferingAt 3 block100) := invariants_buffering

/-- A step for every kind of transition. -/
theorem witness_StateFollowsTheTransitionTable :
    let b := bufferingAt 3 block100
    let p := processingWith block100 true []
    exec .nop State.reset = .next (clearValid State.reset) ∧ exec .reset halted3 = .next (resetBlock halted3) ∧
      exec (.start true true) State.reset = .next (enterBuffering State.reset) ∧
      exec (.start false true) State.reset = .next (raiseStartupFault .timerInit State.reset) ∧
      exec (.tick 1) b = .next (after (exec (.tick 1) b)) ∧ exec .nop p = .next (after (exec .nop p)) :=
  ⟨rfl, rfl, rfl, rfl, rfl, rfl⟩

theorem witness_StrobeMarksExactlyTheCompletions :
    let s := processingWith block100 true []
    exec .nop s = .next (after (exec .nop s)) ∧ (after (exec .nop s)).detValid = true := ⟨rfl, by decide +kernel⟩

theorem witness_LatchedResultHoldsBetweenCompletions :
    let s := processingWith block100 true []
    exec .nop s = .next (after (exec .nop s)) ∧ detPorts (after (exec .nop s)) ≠ detPorts s := ⟨rfl, by decide +kernel⟩

/-- CURSOR 0 and CURSOR N - 1. -/
theorem witness_CursorMovesOnlyByAcceptedTicks :
    let s := bufferingAt 0 []
    let s' := bufferingAt 3 block100
    (exec (.tick 1) s = .next (after (exec (.tick 1) s)) ∧ (after (exec (.tick 1) s)).cursor ≠ s.cursor) ∧
      exec (.tick 1) s' = .next (after (exec (.tick 1) s')) ∧ (after (exec (.tick 1) s')).cursor ≠ s'.cursor :=
  ⟨⟨rfl, by decide⟩, rfl, by decide⟩

theorem witness_BufChangesOnlyUnderTheWriteGrant :
    let s := bufferingAt 2 block100
    exec (.tick 9) s = .next (after (exec (.tick 9) s)) ∧ bufWord (after (exec (.tick 9) s)) 2 ≠ bufWord s 2 :=
  ⟨rfl, by decide⟩

theorem witness_ConfigurationNeverChanges :
    let s := processingWith block100 false [⟨0x030000, true⟩]
    exec .nop State.reset = .next (clearValid State.reset) ∧ runCycles 1 s = .next (after (runCycles 1 s)) := ⟨rfl, rfl⟩

/-- A completion and then a full block of ticks. -/
theorem witness_BlockCountLaw :
    let s := processingWith block100 false
      [⟨0x030000, true⟩, ⟨0x070001, false⟩, ⟨0x070002, false⟩, ⟨0x070003, false⟩, ⟨0x070004, false⟩]
    Invariants s ∧ s.cursor = 0 ∧ noResetIn 5 s = true ∧ acceptedIn 5 s = 4 :=
  ⟨invariants_processing _ (by decide), rfl, by decide +kernel, by decide +kernel⟩

/-- An accepted tick, a cycle that keeps the state, and a completion that begins a block. -/
theorem witness_BlockIsTheSequenceOfAcceptedSamples :
    let a := { bufferingAt 3 block100 with trace := [⟨0x070001, false⟩] }
    let b := { bufferingAt 3 block100 with trace := [⟨0x030000, false⟩] }
    let c := processingWith block100 false [⟨0x030000, true⟩]
    (Invariants a ∧ step a = .next (after (step a)) ∧ acceptedSample a = some 1) ∧
      (Invariants b ∧ step b = .next (after (step b)) ∧ acceptedSample b = none ∧ (after (step b)).state = b.state) ∧
      Invariants c ∧ step c = .next (after (step c)) ∧ (after (step c)).state = .buffering ∧ c.state ≠ .buffering :=
  ⟨⟨{ invariants_buffering with inputs := by decide }, rfl, by decide⟩,
    ⟨{ invariants_buffering with inputs := by decide }, rfl, by decide, by decide⟩, invariants_processing _ (by decide), rfl, rfl,
    by decide⟩

/-- The same BUFFERING state with another E, other free words, and another word at and above CURSOR. -/
theorem witness_UnspecifiedContentsNeverShow :
    let s := bufferingAt 3 block100
    Invariants s ∧
      SameButHidden s
        { s with buf := [(0, 100), (1, 0), (2, 0), (3, 77)], bufEpoch := 5, energy := ⟨1, 2, 3, 4, 5, 6, 7⟩ } :=
  ⟨invariants_buffering, rfl, by decide⟩

end Sys2Proof.Tests
end

section
/-! The step and the inputs it samples (00_scope.md R17, 30_encoding.md R62), and the obligation of 00_scope.md. -/

namespace Sys2Proof.Proofs

open Sys2Proof.Machine

/-- Where the input word decodes, the cycle is the operation on the state that has sampled its inputs. -/
theorem step_of_decode {s : State} {i : Instr} (h : decode s.cfg.sampleW (nextInput s).word = .instr i) :
    step s = exec i (sampleInput (nextInput s) s) := by
  simp only [step, h]

theorem nextInput_of_trace_cons {s : State} {c : CycleInput} {rest : List CycleInput} (h : s.trace = c :: rest) :
    nextInput s = c := by
  simp only [nextInput, h]

/-- Past the end of the trace the environment still drives WW bits (log entry 9). -/
theorem nextInput_word_lt_of_trace_nil {s : State} (h : s.trace = []) :
    (nextInput s).word < 2 ^ wordWidth s.cfg.sampleW := by
  simp only [nextInput, h]
  exact Nat.mod_lt _ (Nat.two_pow_pos _)

/-- Settles O21: the state in which the operation runs is `sampleInput`, whose fields the statement writes out. -/
theorem stepRunsTheDecodedOperation : Obligations.StepRunsTheDecodedOperation :=
  ⟨fun _ _ h => step_of_decode h, fun _ _ _ h => nextInput_of_trace_cons h, fun _ h => nextInput_word_lt_of_trace_nil h⟩

end Sys2Proof.Proofs
end

section
/-! The invariants of 10_state.md R36, and what each update of the state keeps of them. -/

namespace Sys2Proof.Proofs

open Sys2Proof.Machine Sys2Proof.Laws

/-! ## The words of the current block -/

theorem liveWords_of_buffering {s : State} (h : s.state = .buffering) : liveWords s = s.cursor := by
  simp only [liveWords, h]

theorem liveWords_of_processing {s : State} (h : s.state = .processing) : liveWords s = s.cfg.n := by
  simp only [liveWords, h]

/-- CURSOR and STATE after a write at CURSOR: at N - 1 it fills the buffer, below it moves one on. -/
theorem advanceCursor_cases {s : State} (hc : s.cursor < s.cfg.n) :
    s.cursor = s.cfg.n - 1 ∧ (advanceCursor s).cursor = 0 ∧ (advanceCursor s).state = .processing ∨
      s.cursor < s.cfg.n - 1 ∧ (advanceCursor s).cursor = s.cursor + 1 ∧ (advanceCursor s).state = s.state := by
  by_cases h : s.cursor = s.cfg.n - 1
  · exact .inl ⟨h, advanceCursor_of_eq s h⟩
  · exact .inr ⟨by omega, advanceCursor_of_ne s h⟩

/-- An accepted tick adds one word to the block: the filling write, which zeroes CURSOR, leaves all N of them live. -/
theorem liveWords_advanceCursor {s : State} (hs : s.state = .buffering) (hc : s.cursor < s.cfg.n) :
    liveWords (advanceCursor s) = s.cursor + 1 := by
  obtain ⟨hlast, -, hst⟩ | ⟨-, hcur, hst⟩ := advanceCursor_cases hc
  · rw [liveWords_of_processing hst, advanceCursor_cfg]
    omega
  · rw [liveWords_of_buffering (hst.trans hs), hcur]

/-! ## The Detection Result -/

/-- A Detection Result is a row and a column with the code the grid has there, or "no tone" (42_classify.md R129). -/
theorem classify_cases (c : Config) (e : Tones Nat) :
    (∃ row col, classify c e = .hit row col (gridAt c.grid row col)) ∨ classify c e = .noTone := by
  unfold classify
  split
  · exact .inl ⟨_, _, rfl⟩
  · exact .inr rfl

/-- Every cause of a startup fault has a code that is produced, and not NONE. -/
theorem diagOf_legal (cause : StartupCause) : diagLegal (diagOf cause) = true ∧ diagOf cause ≠ .none := by
  cases cause <;> decide

/-! ## One lemma per update of the state -/

variable {s : State}

theorem diagLegal_of_invariants (h : Invariants s) : diagLegal s.diag = true := (legalCodes_iff.mp h.codes).1

/-- Outside HALTED, DIAG is NONE. -/
theorem diag_eq_none_of_invariants (h : Invariants s) (hs : s.state ≠ .halted) : s.diag = .none :=
  of_not_not fun hd => hs (h.halted.mp hd)

theorem invariants_sampleInput (h : Invariants s) (c : CycleInput) : Invariants (sampleInput c s) :=
  { h with inputs := fun d hd => h.inputs d (List.mem_of_mem_tail hd) }

theorem invariants_clearValid (h : Invariants s) : Invariants (clearValid s) :=
  { h with strobe := by simp }

theorem invariants_loadEnergy (h : Invariants s) {e : Tones Nat} (he : ∀ i, tone e i < 2 ^ s.cfg.magW) :
    Invariants (loadEnergy e s) :=
  { h with energy := he }

theorem invariants_resetWith {c : Config} (hc : c.WellFormed) : Invariants (State.resetWith c) where
  config := hc
  codes := rfl
  cursor := by
    obtain ⟨-, hn, -⟩ := hc
    exact Nat.lt_of_lt_of_le Nat.two_pos hn
  cursorZero := fun _ => rfl
  halted := by simp [State.resetWith]
  admitted := by simp [State.resetWith]
  memory := rfl
  written := fun i hi => absurd hi (Nat.not_lt_zero i)
  strobe := by simp [State.resetWith]
  symbol := by simp [State.resetWith]
  noTone := fun _ => ⟨rfl, rfl, rfl⟩
  energy := fun i => by fin_cases i <;> exact Nat.two_pow_pos _
  inputs := by simp [State.resetWith]

/-- RESET restores what the reset state has, but for E and the model's own fields. -/
theorem invariants_resetBlock (h : Invariants s) : Invariants (resetBlock s) :=
  { invariants_resetWith h.config with energy := freeEnergies_lt s, inputs := h.inputs }

/-- START in IDLE, where CURSOR is 0 and the new block is empty. -/
theorem invariants_enterBuffering (h : Invariants s) (hs : s.state = .idle) (hc : configAdmitted s.cfg = true) :
    Invariants (enterBuffering s) :=
  have hcur : s.cursor = 0 := h.cursorZero (by simp [hs])
  { h with
    codes := legalCodes_iff.mpr ⟨diagLegal_of_invariants (s := s) h, .inr (.inl rfl)⟩
    cursorZero := fun _ => hcur
    halted := by simp [diag_eq_none_of_invariants h, hs]
    admitted := fun _ => hc
    written := fun i hi => absurd (hcur ▸ hi : i < 0) (Nat.not_lt_zero i)
    strobe := fun _ => rfl }

/-- The startup fault in IDLE, where CURSOR is 0. -/
theorem invariants_raiseStartupFault (h : Invariants s) (hs : s.state = .idle) (cause : StartupCause) :
    Invariants (raiseStartupFault cause s) :=
  have hcur : s.cursor = 0 := h.cursorZero (by simp [hs])
  { h with
    codes := legalCodes_iff.mpr ⟨(diagOf_legal cause).1, .inr (.inr (.inr rfl))⟩
    cursorZero := fun _ => hcur
    halted := iff_of_true (diagOf_legal cause).2 rfl
    admitted := by simp
    written := fun i hi => absurd hi (Nat.not_lt_zero i)
    strobe := by simp }

/-- The accepted tick: the word at CURSOR joins the block, whether or not it fills the buffer. -/
theorem invariants_advanceCursor_storeWord (h : Invariants s) (hs : s.state = .buffering) {v : Nat}
    (hv : v < 2 ^ s.cfg.sampleW) : Invariants (advanceCursor (storeWord s.cursor v s)) := by
  have hc : s.cursor < s.cfg.n := h.cursor
  have hlive : liveWords (advanceCursor (storeWord s.cursor v s)) = s.cursor + 1 := liveWords_advanceCursor hs hc
  have hcases := advanceCursor_cases (s := storeWord s.cursor v s) hc
  simp only [storeWord_cursor, storeWord_cfg, storeWord_state, hs] at hcases
  have hdiag : s.diag = .none := diag_eq_none_of_invariants h (by simp [hs])
  exact
    { config := by simpa using h.config
      codes := legalCodes_iff.mpr ⟨by simp [hdiag, diagLegal], by tauto⟩
      cursor := by rw [advanceCursor_cfg, storeWord_cfg]; omega
      cursorZero := fun hb => by tauto
      halted := by obtain ⟨-, -, hst⟩ | ⟨-, -, hst⟩ := hcases <;> simp [hst, hdiag]
      admitted := fun _ => by simpa using h.admitted (.inl hs)
      memory := by simpa using writeWord_wf h.memory hc hv
      written := by
        intro i hi
        rw [hlive] at hi
        rw [advanceCursor_buf, storeWord_buf, readWord_writeWord]
        split
        · rfl
        · next hne => exact h.written i (by rw [liveWords_of_buffering hs]; omega)
      strobe := by simp
      symbol := by simpa using h.symbol
      noTone := by simpa using h.noTone
      energy := by simpa using h.energy
      inputs := by simpa using h.inputs }

/-- ENGINE_DONE: back to BUFFERING, where the next block begins at CURSOR 0, with the result of E on the ports. -/
theorem invariants_complete (h : Invariants s) (hs : s.state = .processing) : Invariants (complete s) := by
  have hcur : s.cursor = 0 := h.cursorZero (by simp [hs])
  have hdiag : s.diag = .none := diag_eq_none_of_invariants h (by simp [hs])
  have hlive : liveWords (complete s) = 0 := by simp [liveWords, hcur]
  exact
    { config := by simpa using h.config
      codes := legalCodes_iff.mpr ⟨by simp [hdiag, diagLegal], .inr (.inl rfl)⟩
      cursor := by simpa using h.cursor
      cursorZero := by simp
      halted := by simp [hdiag]
      admitted := by simpa using h.admitted (.inr hs)
      memory := by simpa using h.memory
      written := by simp [hlive]
      strobe := fun _ => rfl
      symbol := by
        rw [complete_detHit, complete_detRow, complete_detCol, complete_detSym, complete_cfg]
        rcases classify_cases s.cfg s.energy with ⟨row, col, hd⟩ | hd <;> rw [hd]
        · exact fun _ => ⟨row, col, rfl, rfl, rfl⟩
        · simp
      noTone := by
        rw [complete_detHit, complete_detRow, complete_detCol, complete_detSym]
        rcases classify_cases s.cfg s.energy with ⟨row, col, hd⟩ | hd <;> rw [hd]
        · simp
        · exact fun _ => ⟨rfl, rfl, rfl⟩
      energy := by simpa using freeEnergies_lt s
      inputs := by simpa using h.inputs }

/-- Everything an operation can do keeps the invariants. -/
theorem invariants_of_effect {i : Instr} {t : State} (h : Invariants s) (he : Effect i s t) : Invariants t := by
  have hload := invariants_loadEnergy h (energies_lt s.cfg (readBlock s s.cfg.t))
  cases he with
  | reset _ ht => exact ht ▸ invariants_resetBlock h
  | quiet _ _ ht => exact ht ▸ invariants_clearValid h
  | started _ _ _ hs hc ht => exact ht ▸ invariants_enterBuffering h hs (startupCheck_eq_none.mp hc).1
  | halted _ _ cause _ hs _ ht => exact ht ▸ invariants_raiseStartupFault h hs cause
  | accepted x _ hs _ ht => exact ht ▸ invariants_advanceCursor_storeWord h hs (toPattern_lt _ x)
  | waited _ _ _ _ ht => exact ht ▸ invariants_clearValid hload
  | completed _ hs _ _ ht => exact ht ▸ invariants_complete hload hs

/-- The step lemma of 10_state.md R36, for the proofs about runs. -/
theorem invariants_of_step {t : State} (h : Invariants s) (hstep : step s = .next t) : Invariants t := by
  obtain ⟨i, -, -, he⟩ := step_effect hstep
  exact invariants_of_effect (invariants_sampleInput h _) he

/-- Settles O42: the default parameters are in their domains too. -/
theorem resetMeetsTheInvariants : Obligations.ResetMeetsTheInvariants :=
  ⟨fun _ hc => invariants_resetWith hc, invariants_resetWith (by decide)⟩

/-- Settles O43, by the effects an operation can have. -/
theorem everyStepKeepsTheInvariants : Obligations.EveryStepKeepsTheInvariants :=
  fun _ _ h hstep => invariants_of_step h hstep

end Sys2Proof.Proofs
end

section
/-! Two states that differ only in what the spec leaves unspecified stay so, and answer alike (00_scope.md R19). -/

namespace Sys2Proof.Proofs

open Sys2Proof.Machine Sys2Proof.Laws

/-- `s` with other unspecified contents: the words `m` in BUF, free values of the epoch `ep`, and `e` in E. -/
def withHidden (m : Memory) (ep : Nat) (e : Tones Nat) (s : State) : State := { s with buf := m, bufEpoch := ep, energy := e }

/-- The definition of `SameButHidden` with the other state replaced by a modified `s`. -/
theorem sameButHidden_iff {s t : State} :
    SameButHidden s t ↔ ∃ m ep e, t = withHidden m ep e s ∧ ∀ i < liveWords s, bufWord t i = bufWord s i := by
  constructor
  · rintro ⟨ht, hlive⟩
    exact ⟨t.buf, t.bufEpoch, t.energy, ht, hlive⟩
  · rintro ⟨m, ep, e, rfl, hlive⟩
    exact ⟨rfl, hlive⟩

variable {s : State} {m : Memory} {ep : Nat} {e : Tones Nat}

/-! ## Each update of the state beside hidden contents -/

/-- RESET draws the unspecified contents anew, whatever they were. -/
theorem resetBlock_withHidden : resetBlock (withHidden m ep e s) = resetBlock s := rfl

theorem clearValid_withHidden : clearValid (withHidden m ep e s) = withHidden m ep e (clearValid s) := rfl

theorem enterBuffering_withHidden : enterBuffering (withHidden m ep e s) = withHidden m ep e (enterBuffering s) := rfl

theorem raiseStartupFault_withHidden (cause : StartupCause) :
    raiseStartupFault cause (withHidden m ep e s) = withHidden m ep e (raiseStartupFault cause s) := rfl

theorem storeWord_withHidden (i v : Nat) :
    storeWord i v (withHidden m ep e s) = withHidden (writeWord m i v) ep e (storeWord i v s) := rfl

theorem advanceCursor_withHidden : advanceCursor (withHidden m ep e s) = withHidden m ep e (advanceCursor s) := by
  by_cases h : s.cursor = s.cfg.n - 1
  · rw [advanceCursor_full h, advanceCursor_full (s := withHidden m ep e s) h]
    rfl
  · rw [advanceCursor_next h, advanceCursor_next (s := withHidden m ep e s) h]
    rfl

/-- The energies loaded replace the hidden ones. -/
theorem loadEnergy_withHidden (e' : Tones Nat) :
    loadEnergy e' (withHidden m ep e s) = withHidden m ep e' (loadEnergy e' s) := rfl

/-- The completion reads E alone of the hidden contents. -/
theorem complete_withHidden :
    complete (withHidden m ep s.energy s) = withHidden m ep (freeEnergies s) (complete s) := by
  show { emit (classify s.cfg s.energy) (withHidden m ep s.energy s) with state := .buffering, energy := freeEnergies s } = _
  unfold complete
  cases classify s.cfg s.energy <;> rfl

/-! ## Hidden contents stay hidden -/

theorem sameButHidden_refl (s : State) : SameButHidden s s := ⟨rfl, fun _ _ => rfl⟩

/-- Where no word of BUF is live, every content of BUF and of E is hidden. -/
theorem sameButHidden_withHidden (h : liveWords s = 0) : SameButHidden s (withHidden m ep e s) :=
  ⟨rfl, fun i hi => absurd (h ▸ hi) (Nat.not_lt_zero i)⟩

variable {t : State}

/-- The other fields that a cycle reads are the same. -/
theorem visible_eq_of_sameButHidden (h : SameButHidden s t) :
    t.cfg = s.cfg ∧ t.state = s.state ∧ t.cursor = s.cursor ∧ t.diag = s.diag ∧ t.draw = s.draw ∧
      nextInput t = nextInput s := by
  obtain ⟨m, ep, e, rfl, -⟩ := sameButHidden_iff.mp h
  exact ⟨rfl, rfl, rfl, rfl, rfl, rfl⟩

theorem sameButHidden_sampleInput (h : SameButHidden s t) (c : CycleInput) :
    SameButHidden (sampleInput c s) (sampleInput c t) := by
  obtain ⟨m, ep, e, rfl, hlive⟩ := sameButHidden_iff.mp h
  exact ⟨rfl, hlive⟩

theorem sameButHidden_clearValid (h : SameButHidden s t) : SameButHidden (clearValid s) (clearValid t) := by
  obtain ⟨m, ep, e, rfl, hlive⟩ := sameButHidden_iff.mp h
  exact ⟨rfl, hlive⟩

theorem sameButHidden_loadEnergy (h : SameButHidden s t) (e : Tones Nat) :
    SameButHidden (loadEnergy e s) (loadEnergy e t) := by
  obtain ⟨m, ep, e', rfl, hlive⟩ := sameButHidden_iff.mp h
  exact ⟨rfl, hlive⟩

theorem sameButHidden_resetBlock (h : SameButHidden s t) : SameButHidden (resetBlock s) (resetBlock t) := by
  obtain ⟨m, ep, e, rfl, -⟩ := sameButHidden_iff.mp h
  rw [resetBlock_withHidden]
  exact sameButHidden_refl _

theorem sameButHidden_enterBuffering (h : SameButHidden s t) (hcur : s.cursor = 0) :
    SameButHidden (enterBuffering s) (enterBuffering t) := by
  obtain ⟨m, ep, e, rfl, -⟩ := sameButHidden_iff.mp h
  exact sameButHidden_withHidden (s := enterBuffering s) hcur

theorem sameButHidden_raiseStartupFault (h : SameButHidden s t) (cause : StartupCause) :
    SameButHidden (raiseStartupFault cause s) (raiseStartupFault cause t) := by
  obtain ⟨m, ep, e, rfl, -⟩ := sameButHidden_iff.mp h
  exact sameButHidden_withHidden (s := raiseStartupFault cause s) rfl

/-- The accepted tick writes the same word in both, so that the longer block agrees too. -/
theorem sameButHidden_advanceCursor_storeWord (h : SameButHidden s t) (hs : s.state = .buffering) (hc : s.cursor < s.cfg.n)
    (v : Nat) : SameButHidden (advanceCursor (storeWord s.cursor v s)) (advanceCursor (storeWord s.cursor v t)) := by
  obtain ⟨m, ep, e, rfl, hlive⟩ := sameButHidden_iff.mp h
  refine sameButHidden_iff.mpr ⟨writeWord m s.cursor v, ep, e, ?_, fun i hi => ?_⟩
  · rw [storeWord_withHidden, advanceCursor_withHidden]
  · rw [liveWords_advanceCursor (s := storeWord s.cursor v s) hs hc] at hi
    rw [bufWord_advanceCursor, bufWord_advanceCursor, bufWord_storeWord, bufWord_storeWord]
    split
    · rfl
    · next hne => exact hlive i (by rw [liveWords_of_buffering hs]; exact Nat.lt_of_le_of_ne (Nat.le_of_lt_succ hi) hne)

theorem sameButHidden_complete (h : SameButHidden s t) (he : t.energy = s.energy) (hcur : s.cursor = 0) :
    SameButHidden (complete s) (complete t) := by
  obtain ⟨m, ep, e, rfl, -⟩ := sameButHidden_iff.mp h
  obtain rfl : e = s.energy := he
  rw [complete_withHidden]
  exact sameButHidden_withHidden (by rw [liveWords_of_buffering (complete_state s), complete_cursor, hcur])

/-- In PROCESSING every word of BUF is live, so that the engine computes the same energies (41_spectral.md R100). -/
theorem energies_eq_of_sameButHidden (h : SameButHidden s t) (hs : s.state = .processing) (ha : configAdmitted s.cfg = true) :
    energies t.cfg (readBlock t t.cfg.t) = energies s.cfg (readBlock s s.cfg.t) := by
  obtain ⟨m, ep, e, rfl, hlive⟩ := sameButHidden_iff.mp h
  obtain ⟨-, hnt, -⟩ := configAdmitted_iff.mp ha
  have hlen : liveWords s = s.cfg.t := (liveWords_of_processing hs).trans hnt
  exact congrArg (energies s.cfg) (readBlock_congr rfl (hlen ▸ hlive))

/-! ## A cycle from two states that differ only in hidden contents -/

/-- Both answers are next states, which differ only in hidden contents. -/
def AnswerAlike (r r' : Result) : Prop := ∃ u v, r = .next u ∧ r' = .next v ∧ SameButHidden u v

theorem answerAlike_next {u v : State} (h : SameButHidden u v) : AnswerAlike (.next u) (.next v) := ⟨u, v, rfl, rfl, h⟩

theorem answerAlike_startPipeline (h : SameButHidden s t) (hcur : s.cursor = 0) (timerOk irqOk : Bool) :
    AnswerAlike (startPipeline timerOk irqOk s) (startPipeline timerOk irqOk t) := by
  obtain ⟨hcfg, -⟩ := visible_eq_of_sameButHidden h
  unfold startPipeline
  rw [hcfg]
  cases startupCheck s.cfg timerOk irqOk with
  | none => exact answerAlike_next (sameButHidden_enterBuffering h hcur)
  | some cause => exact answerAlike_next (sameButHidden_raiseStartupFault h cause)

theorem answerAlike_acceptTick (h : SameButHidden s t) (hs : s.state = .buffering) (hc : s.cursor < s.cfg.n) (x : Int) :
    AnswerAlike (acceptTick x s) (acceptTick x t) := by
  obtain ⟨hcfg, -, hcur, -⟩ := visible_eq_of_sameButHidden h
  refine ⟨_, _, acceptTick_eq_next.mpr ⟨hc, rfl⟩, acceptTick_eq_next.mpr ⟨by rwa [hcur, hcfg], rfl⟩, ?_⟩
  rw [hcur, hcfg]
  exact sameButHidden_advanceCursor_storeWord h hs hc _

theorem answerAlike_engineStep (h : SameButHidden s t) (hs : s.state = .processing) (ha : configAdmitted s.cfg = true)
    (hcur : s.cursor = 0) : AnswerAlike (engineStep s) (engineStep t) := by
  obtain ⟨hcfg, -, -, -, hdraw, -⟩ := visible_eq_of_sameButHidden h
  have hat : configAdmitted t.cfg = true := by rwa [hcfg]
  have hload := sameButHidden_loadEnergy h (energies s.cfg (readBlock s s.cfg.t))
  unfold AnswerAlike
  simp only [engineStep_eq_next, energies_eq_of_sameButHidden h hs ha, hdraw]
  cases hd : s.draw with
  | true => exact ⟨_, _, ⟨ha, .inl ⟨rfl, rfl⟩⟩, ⟨hat, .inl ⟨rfl, rfl⟩⟩, sameButHidden_complete hload rfl hcur⟩
  | false => exact ⟨_, _, ⟨ha, .inr ⟨rfl, rfl⟩⟩, ⟨hat, .inr ⟨rfl, rfl⟩⟩, sameButHidden_clearValid hload⟩

/-- One row of the decode table: both states take the same column. -/
theorem answerAlike_byState (hinv : Invariants s) (h : SameButHidden s t) {a b c d a' b' c' d' : Result}
    (hidle : s.state = .idle → AnswerAlike a a') (hbuf : s.state = .buffering → AnswerAlike b b')
    (hproc : s.state = .processing → AnswerAlike c c') (hhalt : AnswerAlike d d') :
    AnswerAlike (byState s a b c d) (byState t a' b' c' d') := by
  obtain ⟨-, hst, -, hdiag, -⟩ := visible_eq_of_sameButHidden h
  obtain ⟨hl, hs | hs | hs | hs⟩ := legalCodes_iff.mp hinv.codes
  · rw [byState_idle _ _ _ _ hl hs, byState_idle _ _ _ _ (hdiag ▸ hl) (hst.trans hs)]
    exact hidle hs
  · rw [byState_buffering _ _ _ _ hl hs, byState_buffering _ _ _ _ (hdiag ▸ hl) (hst.trans hs)]
    exact hbuf hs
  · rw [byState_processing _ _ _ _ hl hs, byState_processing _ _ _ _ (hdiag ▸ hl) (hst.trans hs)]
    exact hproc hs
  · rw [byState_halted _ _ _ _ hl hs, byState_halted _ _ _ _ (hdiag ▸ hl) (hst.trans hs)]
    exact hhalt

/-- Every operation that has a word answers alike; only ENGINE_DONE, which has none, is refused outside PROCESSING. -/
theorem answerAlike_exec (hinv : Invariants s) (h : SameButHidden s t) {i : Instr} (hi : i ≠ .engineDone) :
    AnswerAlike (exec i s) (exec i t) := by
  have hnop : AnswerAlike (nopCycle s) (nopCycle t) := answerAlike_next (sameButHidden_clearValid h)
  have hstart (a b : Bool) (hs : s.state = .idle) : AnswerAlike (startPipeline a b s) (startPipeline a b t) :=
    answerAlike_startPipeline h (hinv.cursorZero (by simp [hs])) a b
  have htick (x : Int) (hs : s.state = .buffering) : AnswerAlike (acceptTick x s) (acceptTick x t) :=
    answerAlike_acceptTick h hs hinv.cursor x
  have hengine (hs : s.state = .processing) : AnswerAlike (engineStep s) (engineStep t) :=
    answerAlike_engineStep h hs (hinv.admitted (.inr hs)) (hinv.cursorZero (by simp [hs]))
  cases i with
  | reset => exact answerAlike_next (sameButHidden_resetBlock h)
  | start a b => exact answerAlike_byState hinv h (hstart a b) (fun _ => hnop) hengine hnop
  | startTick a b x => exact answerAlike_byState hinv h (hstart a b) (htick x) hengine hnop
  | tick x => exact answerAlike_byState hinv h (fun _ => hnop) (htick x) hengine hnop
  | nop => exact answerAlike_byState hinv h (fun _ => hnop) (fun _ => hnop) hengine hnop
  | engineDone => exact absurd rfl hi

/-- The inputs of a state that meets the invariants are words of WW bits, past the end of its trace too. -/
theorem nextInput_word_lt_of_invariants (h : Invariants s) : (nextInput s).word < 2 ^ wordWidth s.cfg.sampleW := by
  cases htr : s.trace with
  | nil => exact nextInput_word_lt_of_trace_nil htr
  | cons c rest =>
    rw [nextInput_of_trace_cons htr]
    exact h.inputs c (htr ▸ List.mem_cons_self)

/-- A cycle goes on from both states; with `t = s`, it goes on from every state that meets the invariants. -/
theorem answerAlike_step (hinv : Invariants s) (h : SameButHidden s t) : AnswerAlike (step s) (step t) := by
  obtain ⟨hcfg, -, -, -, -, hin⟩ := visible_eq_of_sameButHidden h
  obtain ⟨hdec, hne⟩ := decode_of_lt (nextInput_word_lt_of_invariants hinv)
  rw [step_of_decode hdec, step_of_decode (s := t) (by rwa [hin, hcfg]), hin]
  exact answerAlike_exec (invariants_sampleInput hinv _) (sameButHidden_sampleInput h _) hne

/-- The ports show nothing of BUF or E. -/
theorem outputs_eq_of_sameButHidden (h : SameButHidden s t) : outputs t = outputs s := by
  obtain ⟨m, ep, e, rfl, -⟩ := sameButHidden_iff.mp h
  rfl

theorem observe_succ_of_step {k : Nat} {u : State} (h : step s = .next u) :
    observe (k + 1) s = outputs s :: observe k u := by
  simp only [observe, h]

/-- Settles O53, by induction on the number of cycles: a cycle keeps the invariants and the agreement. -/
theorem unspecifiedContentsNeverShow : Obligations.UnspecifiedContentsNeverShow := by
  intro s t k hinv h
  induction k generalizing s t with
  | zero => simp only [observe, outputs_eq_of_sameButHidden h]
  | succ k ih =>
    obtain ⟨u, v, hu, hv, huv⟩ := answerAlike_step hinv h
    rw [observe_succ_of_step hu, observe_succ_of_step hv, outputs_eq_of_sameButHidden h, ih u v (invariants_of_step hinv hu) huv]

end Sys2Proof.Proofs
end

section
/-! The registers, flags and ports of 10_state.md R20 to R34, and which operations write the latched result and CURSOR. -/

namespace Sys2Proof.Proofs

open Sys2Proof.Machine Sys2Proof.Laws

/-- The two operations that carry a tick (30_encoding.md R64, R65). -/
theorem tickSample_eq_some {i : Instr} {x : Int} :
    tickSample i = some x ↔ i = .tick x ∨ ∃ timerOk irqOk, i = .startTick timerOk irqOk x := by
  cases i <;> simp [tickSample]

/-- Settles O47: of the effects an operation can have, only RESET and the completion write a field of the result. -/
theorem latchedResultHoldsBetweenCompletions : Obligations.LatchedResultHoldsBetweenCompletions := by
  intro i s t hexec hne
  cases exec_effect hexec with
  | reset hi _ => exact .inl hi
  | completed _ hs hd _ _ => exact .inr ⟨hs, hd⟩
  | quiet _ _ ht => exact absurd (by simp [ht, detPorts]) hne
  | started _ _ _ _ _ ht => exact absurd (by simp [ht, detPorts]) hne
  | halted _ _ _ _ _ _ ht => exact absurd (by simp [ht, detPorts]) hne
  | accepted _ _ _ _ ht => exact absurd (by simp [ht, detPorts]) hne
  | waited _ _ _ _ ht => exact absurd (by simp [ht, detPorts]) hne

/-- Settles O48: of the effects an operation can have, only RESET and the accepted tick write CURSOR. -/
theorem cursorMovesOnlyByAcceptedTicks : Obligations.CursorMovesOnlyByAcceptedTicks := by
  intro i s t hexec hne
  cases exec_effect hexec with
  | reset hi ht => exact .inl ⟨hi, by rw [ht, resetBlock_cursor]⟩
  | accepted x hi hs hc ht =>
    refine .inr ⟨hs, ⟨x, tickSample_eq_some.mp hi⟩, ?_⟩
    rw [ht]
    obtain ⟨hlast, hcur, -⟩ | ⟨hlt, hcur, -⟩ :=
      advanceCursor_cases (s := storeWord s.cursor (toPattern s.cfg.sampleW x) s) hc
    · exact .inl ⟨hlast, hcur⟩
    · exact .inr ⟨hlt, hcur⟩
  | quiet _ _ ht => exact absurd (by simp [ht]) hne
  | started _ _ _ _ _ ht => exact absurd (by simp [ht]) hne
  | halted _ _ _ _ _ _ ht => exact absurd (by simp [ht]) hne
  | waited _ _ _ _ ht => exact absurd (by simp [ht]) hne
  | completed _ _ _ _ ht => exact absurd (by simp [ht]) hne

/-- Settles O1: every value is a field of `State.resetWith`, or a flag of its STATE. -/
theorem resetStateHoldsTheSpecifiedValues : Obligations.ResetStateHoldsTheSpecifiedValues :=
  fun _ => ⟨rfl, rfl, rfl, rfl, rfl, rfl, rfl, rfl, rfl, rfl, rfl⟩

/-! The derived flags compare STATE with one of its values. -/
theorem tickEn_iff {s : State} : tickEn s = true ↔ s.state = .buffering := beq_iff_eq

theorem haltedO_iff {s : State} : haltedO s = true ↔ s.state = .halted := beq_iff_eq

theorem wrGrant_iff {s : State} : wrGrant s = true ↔ s.state = .buffering := beq_iff_eq

theorem rdGrant_iff {s : State} : rdGrant s = true ↔ s.state = .processing := beq_iff_eq

/-- The grants are given in different states (20_memory.md R44). -/
theorem not_wrGrant_and_rdGrant (s : State) : ¬(wrGrant s = true ∧ rdGrant s = true) := by
  rw [wrGrant_iff, rdGrant_iff]
  rintro ⟨hw, hr⟩
  exact Phase.noConfusion (hw.symm.trans hr)

/-- Settles O40: each flag holds in its own STATE. -/
theorem derivedOutputsFollowState : Obligations.DerivedOutputsFollowState :=
  fun s => ⟨tickEn_iff, haltedO_iff, wrGrant_iff, rdGrant_iff, not_wrGrant_and_rdGrant s⟩

/-- Settles O41: the codes are constants, and each port is its field of `outputs`. -/
theorem portsCarryTheRegisters : Obligations.PortsCarryTheRegisters :=
  ⟨⟨rfl, rfl, rfl, rfl, rfl, rfl⟩, fun _ => ⟨rfl, rfl, rfl, rfl, rfl, rfl, rfl, rfl, rfl, rfl⟩⟩

end Sys2Proof.Proofs
end

section
/-! What an operation writes to BUF, and what a cycle does to the current block (20_memory.md R42, R44, R48, R49). -/

namespace Sys2Proof.Proofs

open Sys2Proof.Machine Sys2Proof.Laws

variable {s t : State} {i : Instr} {x : Int}

/-! ## The words of BUF -/

/-- The accepted tick writes the word at CURSOR alone. -/
theorem bufWord_advanceCursor_storeWord (v j : Nat) :
    bufWord (advanceCursor (storeWord s.cursor v s)) j = if j = s.cursor then v else bufWord s j := by
  rw [bufWord_advanceCursor, bufWord_storeWord]

/-- Settles O49: of the effects an operation can have, only RESET and the accepted tick write BUF. -/
theorem bufChangesOnlyUnderTheWriteGrant : Obligations.BufChangesOnlyUnderTheWriteGrant := by
  intro i s t j hexec hne
  cases exec_effect hexec with
  | reset hi _ => exact .inl hi
  | accepted x hi hs _ ht =>
    have hw : wrGrant s = true := wrGrant_iff.mpr hs
    have hr : rdGrant s = false := eq_false_of_ne_true fun hr => not_wrGrant_and_rdGrant s ⟨hw, hr⟩
    rw [ht, bufWord_advanceCursor_storeWord] at hne ⊢
    have hj : j = s.cursor := of_not_not fun hj => hne (if_neg hj)
    exact .inr ⟨hw, hr, hj, x, tickSample_eq_some.mp hi, if_pos hj⟩
  | quiet _ _ ht => exact absurd (by simp [ht]) hne
  | started _ _ _ _ _ ht => exact absurd (by simp [ht]) hne
  | halted _ _ _ _ _ _ ht => exact absurd (by simp [ht]) hne
  | waited _ _ _ _ ht => exact absurd (by simp [ht]) hne
  | completed _ _ _ _ ht => exact absurd (by simp [ht]) hne

/-! ## The current block after each update of the state -/

@[simp] theorem currentBlock_sampleInput (c : CycleInput) (s : State) : currentBlock (sampleInput c s) = currentBlock s := rfl
@[simp] theorem currentBlock_clearValid (s : State) : currentBlock (clearValid s) = currentBlock s := rfl
@[simp] theorem currentBlock_loadEnergy (e : Tones Nat) (s : State) : currentBlock (loadEnergy e s) = currentBlock s := rfl

theorem currentBlock_of_idle (hs : s.state = .idle) : currentBlock s = [] := by
  simp [currentBlock, liveWords, hs]

/-- A block begins at CURSOR 0, with none of the words left in BUF (20_memory.md R48). -/
theorem currentBlock_of_cursor_zero (hs : s.state = .buffering) (hc : s.cursor = 0) : currentBlock s = [] := by
  simp [currentBlock, liveWords_of_buffering hs, hc]

/-- The word stored at CURSOR is the last of the longer block, whether or not it fills the buffer. -/
theorem currentBlock_advanceCursor_storeWord (hs : s.state = .buffering) (hc : s.cursor < s.cfg.n) (v : Nat) :
    currentBlock (advanceCursor (storeWord s.cursor v s)) = currentBlock s ++ [v] := by
  have hold : ∀ j ∈ List.range s.cursor, bufWord (advanceCursor (storeWord s.cursor v s)) j = bufWord s j := fun j hj => by
    rw [bufWord_advanceCursor_storeWord, if_neg (List.mem_range.mp hj).ne]
  have hnew : bufWord (advanceCursor (storeWord s.cursor v s)) s.cursor = v := by
    rw [bufWord_advanceCursor_storeWord, if_pos rfl]
  unfold currentBlock
  rw [liveWords_advanceCursor (s := storeWord s.cursor v s) hs hc, storeWord_cursor, liveWords_of_buffering hs,
    List.range_succ, List.map_append, List.map_congr_left hold, List.map_singleton, hnew]

/-! ## The current block after each effect of an operation -/

/-- A tick in BUFFERING has no other effect than to be accepted. -/
theorem currentBlock_of_tick (h : Effect i s t) (hs : s.state = .buffering) (hi : tickSample i = some x) :
    currentBlock t = currentBlock s ++ [toPattern s.cfg.sampleW x] := by
  cases h with
  | accepted y hy _ hc ht =>
    obtain rfl : x = y := Option.some.inj (hi.symm.trans hy)
    rw [ht, currentBlock_advanceCursor_storeWord hs hc]
  | reset hr _ => simp [hr, tickSample] at hi
  | quiet _ hq _ => simp [hs, hi] at hq
  | started _ _ _ hs' _ _ => simp [hs] at hs'
  | halted _ _ _ _ hs' _ _ => simp [hs] at hs'
  | waited _ hs' _ _ _ => simp [hs] at hs'
  | completed _ hs' _ _ _ => simp [hs] at hs'

/-- Without an accepted tick, an effect that keeps STATE either touches no word of the block or is RESET in IDLE, where the
block is empty before and after. -/
theorem currentBlock_of_state_eq (h : Effect i s t) (hno : s.state = .buffering → tickSample i = none)
    (hst : t.state = s.state) : currentBlock t = currentBlock s := by
  cases h with
  | reset _ ht =>
    have hidle : t.state = .idle := by rw [ht, resetBlock_state]
    rw [currentBlock_of_idle hidle, currentBlock_of_idle (hst.symm.trans hidle)]
  | quiet _ _ ht => rw [ht, currentBlock_clearValid]
  | waited _ _ _ _ ht => rw [ht, currentBlock_clearValid, currentBlock_loadEnergy]
  | started _ _ _ hs _ ht => simp [ht, hs] at hst
  | halted _ _ _ _ hs _ ht => simp [ht, hs] at hst
  | accepted _ hi hs _ _ => simp [hno hs] at hi
  | completed _ hs _ _ ht => simp [ht, hs] at hst

/-- BUFFERING is entered by START and by the completion, neither of which writes CURSOR. -/
theorem cursor_eq_of_enters_buffering (h : Effect i s t) (ht : t.state = .buffering) (hs : s.state ≠ .buffering) :
    t.cursor = s.cursor := by
  cases h with
  | started _ _ _ _ _ ht' => rw [ht', enterBuffering_cursor]
  | completed _ _ _ _ ht' => rw [ht', complete_cursor, loadEnergy_cursor]
  | reset _ ht' => simp [ht'] at ht
  | quiet _ _ ht' => exact absurd (by simpa [ht'] using ht) hs
  | halted _ _ _ _ _ _ ht' => simp [ht'] at ht
  | accepted _ _ hs' _ _ => exact absurd hs' hs
  | waited _ _ _ _ ht' => exact absurd (by simpa [ht'] using ht) hs

/-! ## The current block over a cycle -/

/-- The coming cycle's tick is accepted in BUFFERING and nowhere else (40_acquisition.md R84, R86). -/
theorem acceptedSample_of_decode (h : decode s.cfg.sampleW (nextInput s).word = .instr i) :
    acceptedSample s = if s.state = .buffering then tickSample i else none := by
  have hnext : nextInstr s = some i := by simp only [nextInstr, h]
  unfold acceptedSample
  rw [hnext]
  cases hs : s.state with
  | buffering => cases i <;> rfl
  | _ => rfl

/-- Settles O52: a cycle is an effect of its operation on the state that has sampled its inputs, which has the same block. -/
theorem blockIsTheSequenceOfAcceptedSamples : Obligations.BlockIsTheSequenceOfAcceptedSamples := by
  intro s t hinv hstep
  obtain ⟨i, hdec, -, heff⟩ := step_effect hstep
  rw [acceptedSample_of_decode hdec]
  refine ⟨fun x hx => ?_, fun hno hst => ?_, fun hbuf hs => ?_⟩
  · obtain ⟨hs, hi⟩ : s.state = .buffering ∧ tickSample i = some x := by simpa using hx
    simpa using currentBlock_of_tick heff hs hi
  · have hnone : s.state = .buffering → tickSample i = none := fun hs => by simpa [hs] using hno
    simpa using currentBlock_of_state_eq heff hnone hst
  · have hcur : t.cursor = s.cursor := by simpa using cursor_eq_of_enters_buffering heff hbuf hs
    exact currentBlock_of_cursor_zero hbuf (hcur.trans (hinv.cursorZero hs))

end Sys2Proof.Proofs
end

section
/-! Input words and operations: the two's-complement reading of 30_encoding.md R63, the rows of R64, and the words of R71. -/

namespace Sys2Proof.Proofs

open Sys2Proof.Machine Sys2Proof.Laws

variable {sw w : Nat} {i : Instr}

/-! ## Samples and their patterns -/

/-- Reading a pattern back undoes the storing of a sample in range. -/
theorem sext_toPattern (hsw : 1 ≤ sw) {x : Int} (hx : SampleInRange sw x) : sext sw (toPattern sw x) = x := by
  obtain ⟨hlo, hhi⟩ := hx
  rw [sext, toPattern, BitVec.ofNat_toNat, BitVec.setWidth_eq, BitVec.toInt_ofInt_eq_self hsw hlo hhi]

/-- Storing a sample read from a pattern restores the pattern's low bits. -/
theorem toPattern_sext (sw v : Nat) : toPattern sw (sext sw v) = v % 2 ^ sw := by
  rw [toPattern, sext, BitVec.ofInt_toInt, BitVec.toNat_ofNat]

/-- Every pattern reads as a sample of the format. -/
theorem sampleInRange_sext (sw v : Nat) : SampleInRange sw (sext sw v) := ⟨BitVec.le_toInt _, BitVec.toInt_lt⟩

/-- Settles O15: the two readings of a pattern are inverse to each other. -/
theorem samplesAreStoredUnchanged : Obligations.SamplesAreStoredUnchanged := by
  refine fun sw hsw => ⟨fun x hx => ⟨toPattern_lt sw x, sext_toPattern hsw hx⟩, fun w => ⟨sampleInRange_sext _ _, ?_⟩⟩
  rw [toPattern_sext, sampleField, Nat.mod_mod]

/-! ## The decoder -/

/-- A number decodes exactly when it has WW bits, to the row its fields select. -/
theorem decode_eq_instr : decode sw w = .instr i ↔ w < 2 ^ wordWidth sw ∧ decodeFields sw w = i := by
  by_cases h : w < 2 ^ wordWidth sw <;> simp [decode, h]

/-- Settles O19: the branches of the decoder, one for each row of the table. -/
theorem rstAboveStartAboveTick : Obligations.RstAboveStartAboveTick := by
  intro sw w hw
  simp only [decode_eq_instr, hw, true_and]
  refine ⟨fun hr => ?_, fun hr hs ht => ?_, fun hr hs ht => ?_, fun hr hs ht => ?_, fun hr hs ht => ?_⟩
  · simp [decodeFields, hr]
  all_goals simp [decodeFields, hr, hs, ht]

/-- The only operand with a range is a sample read from the word's own field. -/
theorem wellFormed_decodeFields (sw w : Nat) : (decodeFields sw w).WellFormed sw := by
  unfold decodeFields
  split_ifs
  · exact trivial
  · exact sampleInRange_sext _ _
  · exact trivial
  · exact sampleInRange_sext _ _
  · exact trivial

/-- A packed word decodes by the fields it was packed from. -/
theorem decode_pack {v : Nat} (hv : v < 2 ^ sw) (rst start tick timerOk irqOk : Bool) :
    decode sw (pack sw rst start tick timerOk irqOk v) =
      .instr
        (if rst then .reset
        else if start then if tick then .startTick timerOk irqOk (sext sw v) else .start timerOk irqOk
        else if tick then .tick (sext sw v)
        else .nop) := by
  rw [(decode_of_lt (pack_lt hv _ _ _ _ _)).1, decodeFields, rstBit_pack hv, startBit_pack hv, tickBit_pack hv,
    timerOkBit_pack hv, irqOkBit_pack hv, sampleField_pack hv]

/-! ## Words of operations -/

/-- Every well-formed operation but ENGINE_DONE has a word that gives it back; a sample alone is not packed as it is. -/
theorem exists_encode_decode (hsw : 1 ≤ sw) (hi : i.WellFormed sw) (hne : i ≠ .engineDone) :
    ∃ w, encode sw i = some w ∧ decode sw w = .instr i := by
  cases i with
  | reset => exact ⟨_, rfl, decode_pack (Nat.two_pow_pos sw) ..⟩
  | start a b => exact ⟨_, rfl, decode_pack (Nat.two_pow_pos sw) ..⟩
  | startTick a b x => exact ⟨_, rfl, by simp [decode_pack (toPattern_lt sw x), sext_toPattern hsw hi]⟩
  | tick x => exact ⟨_, rfl, by simp [decode_pack (toPattern_lt sw x), sext_toPattern hsw hi]⟩
  | nop => exact ⟨_, rfl, decode_pack (Nat.two_pow_pos sw) ..⟩
  | engineDone => exact absurd rfl hne

/-- Settles O18: the packed fields are read back, and the decoder's rows hold samples in range and no ENGINE_DONE. -/
theorem decodeInvertsEncode : Obligations.DecodeInvertsEncode := by
  refine fun sw hsw => ⟨fun i hi hne => ?_, rfl, fun w i hdec => ?_⟩
  · obtain ⟨w, hw, hdec⟩ := exists_encode_decode hsw hi hne
    exact ⟨w, hw, (decode_eq_instr.mp hdec).1, hdec⟩
  · refine ⟨?_, fun hi => decode_ne_engineDone sw w (hi ▸ hdec)⟩
    obtain ⟨-, rfl⟩ := decode_eq_instr.mp hdec
    exact wellFormed_decodeFields sw w

/-- Settles O20, by running the decoder on the ten words. -/
theorem traceWordsDecodeToTheirOperations : Obligations.TraceWordsDecodeToTheirOperations := by
  unfold Obligations.TraceWordsDecodeToTheirOperations
  decide

/-! ## Pseudo-operations of a trace -/

/-- Settles O24: line j of WAIT k is one of its k - 1 plain NOPs or, at j = k - 1, the marked one after them. -/
theorem pseudoOperationsExpand : Obligations.PseudoOperationsExpand := by
  refine ⟨fun _ => rfl, fun _ => rfl, rfl, fun k hk => ⟨?_, fun j hj => ?_⟩⟩
  · rw [expandItem, List.length_append, List.length_replicate, List.length_singleton, Nat.sub_add_cancel hk]
  · rw [expandItem, List.getElem?_append, List.length_replicate]
    by_cases hlast : j = k - 1
    · simp [hlast]
    · have hlt : j < k - 1 := by omega
      simp [hlast, hlt]

end Sys2Proof.Proofs
end

section
/-! START_TICK in IDLE (30_encoding.md R65), and runs that go on for ever (R66, 60_exceptions.md R142). -/

namespace Sys2Proof.Proofs

open Sys2Proof.Machine Sys2Proof.Laws

variable {s : State}

/-- Whether the pipeline starts or a check fails, START writes neither BUF nor CURSOR. -/
theorem startPipeline_next (timerOk irqOk : Bool) (s : State) :
    ∃ t, startPipeline timerOk irqOk s = .next t ∧ t.buf = s.buf ∧ t.cursor = s.cursor := by
  cases hc : startupCheck s.cfg timerOk irqOk with
  | none => exact ⟨enterBuffering s, startPipeline_eq_next.mpr (.inl ⟨hc, rfl⟩), rfl, rfl⟩
  | some cause => exact ⟨raiseStartupFault cause s, startPipeline_eq_next.mpr (.inr ⟨cause, hc, rfl⟩), rfl, rfl⟩

/-- Settles O10: the IDLE column of both operations is the start of the pipeline. -/
theorem startTickInIdleDropsTheTick : Obligations.StartTickInIdleDropsTheTick := by
  intro s timerOk irqOk x hs hcodes
  obtain ⟨hdiag, -⟩ := legalCodes_iff.mp hcodes
  obtain ⟨t, ht, hbuf, hcur⟩ := startPipeline_next timerOk irqOk s
  exact ⟨t, (byState_idle _ _ _ _ hdiag hs).trans ht, (byState_idle _ _ _ _ hdiag hs).trans ht, hbuf, hcur⟩

/-- A state that meets the invariants has a next state: it answers like itself. -/
theorem step_next_of_invariants (h : Invariants s) : ∃ t, step s = .next t := by
  obtain ⟨t, -, ht, -⟩ := answerAlike_step h (sameButHidden_refl s)
  exact ⟨t, ht⟩

/-- Settles O44, by induction on the number of cycles: a cycle answers a next state, which meets the invariants again. -/
theorem runsNeverStop : Obligations.RunsNeverStop := by
  intro s k hinv
  induction k generalizing s with
  | zero => exact ⟨s, runCycles_zero s⟩
  | succ k ih =>
    obtain ⟨u, hu⟩ := step_next_of_invariants hinv
    obtain ⟨t, ht⟩ := ih u (invariants_of_step hinv hu)
    exact ⟨t, runCycles_succ_eq_next.mpr ⟨u, hu, ht⟩⟩

end Sys2Proof.Proofs
end

section
/-! What START, TICK and NOP do in each STATE (40_acquisition.md R80 to R86), by the columns of the decode table. -/

namespace Sys2Proof.Proofs

open Sys2Proof.Machine Sys2Proof.Laws

variable {s t : State} {a b c d a' b' c' d' : Result}

/-! ## Columns that are not read -/

/-- Outside IDLE the first column is not read. -/
theorem byState_of_ne_idle (hs : s.state ≠ .idle) : byState s a b c d = byState s a' b c d := by
  unfold byState
  cases h : s.state with
  | idle => exact absurd h hs
  | _ => rfl

/-- Outside BUFFERING the second column is not read. -/
theorem byState_of_ne_buffering (hs : s.state ≠ .buffering) : byState s a b c d = byState s a b' c d := by
  unfold byState
  cases h : s.state with
  | buffering => exact absurd h hs
  | _ => rfl

/-- A reserved code reads no column. -/
theorem byState_of_not_legal (h : legalCodes s = false) : byState s a b c d = .fault .reservedCode := by
  unfold byState
  split
  · next hdiag =>
    have hphase : phaseLegal s.state = false := by simpa [legalCodes, hdiag] using h
    revert hphase
    cases s.state <;> simp [phaseLegal]
  · rfl

/-- Settles O35: every operation but RESET is a row of the table. -/
theorem reservedCodesHaveNoStepButReset : Obligations.ReservedCodesHaveNoStepButReset := by
  intro s i hcodes hi
  cases i with
  | reset => exact absurd rfl hi
  | start | startTick | tick | nop | engineDone => exact byState_of_not_legal hcodes

/-! ## Ignored bits -/

/-- HALTED is left by RESET alone (60_exceptions.md R145). -/
theorem eq_reset_of_leaves_halted {i : Instr} (h : Effect i s t) (hs : s.state = .halted) (ht : t.state ≠ .halted) :
    i = .reset := by
  cases h with
  | reset hi _ => exact hi
  | quiet _ _ ht' => exact absurd (by rw [ht', clearValid_state, hs]) ht
  | started _ _ _ hs' _ _ => simp [hs] at hs'
  | halted _ _ _ _ hs' _ _ => simp [hs] at hs'
  | accepted _ _ hs' _ _ => simp [hs] at hs'
  | waited _ hs' _ _ _ => simp [hs] at hs'
  | completed _ hs' _ _ _ => simp [hs] at hs'

/-- Settles O9: the rows with a start bit differ from those without it in the IDLE column alone. -/
theorem startHasNoEffectOutsideIdle : Obligations.StartHasNoEffectOutsideIdle :=
  ⟨fun _ _ _ _ hs => ⟨byState_of_ne_idle hs, byState_of_ne_idle hs⟩,
    fun _ _ _ hexec hs ht => eq_reset_of_leaves_halted (exec_effect hexec) hs ht⟩

/-- NOP writes neither BUF nor CURSOR. -/
theorem buf_cursor_of_nop (h : Effect .nop s t) : t.buf = s.buf ∧ t.cursor = s.cursor := by
  cases h with
  | quiet _ _ ht => simp [ht]
  | waited _ _ _ _ ht => simp [ht]
  | completed _ _ _ _ ht => simp [ht]
  | reset hi _ => cases hi
  | started _ _ hi _ _ _ => cases hi
  | halted _ _ _ hi _ _ _ => cases hi
  | accepted _ hi _ _ _ => cases hi

/-- Settles O13: the rows with a tick bit differ from those without it in the BUFFERING column alone. -/
theorem droppedTickContributesNothing : Obligations.DroppedTickContributesNothing := by
  intro s x hs
  have hnop : exec (.tick x) s = exec .nop s := byState_of_ne_buffering hs
  exact ⟨hnop, fun _ _ => byState_of_ne_buffering hs, fun t ht => buf_cursor_of_nop (exec_effect (hnop ▸ ht))⟩

/-- Settles O12: the columns of the four rows that hold the cycle that performs nothing. -/
theorem nopClearsOnlyTheStrobe : Obligations.NopClearsOnlyTheStrobe := by
  intro s hcodes
  obtain ⟨hdiag, hlegal⟩ := legalCodes_iff.mp hcodes
  refine ⟨fun hs => ?_, fun x hs => ?_, fun timerOk irqOk hs => ?_,
    fun timerOk irqOk x hs => byState_halted _ _ _ _ hdiag hs⟩
  · obtain hidle | hbuf | hproc | hhalt := hlegal
    · exact byState_idle _ _ _ _ hdiag hidle
    · exact byState_buffering _ _ _ _ hdiag hbuf
    · exact absurd hproc hs
    · exact byState_halted _ _ _ _ hdiag hhalt
  · obtain hidle | hhalt := hs
    · exact byState_idle _ _ _ _ hdiag hidle
    · exact byState_halted _ _ _ _ hdiag hhalt
  · obtain hbuf | hhalt := hs
    · exact byState_buffering _ _ _ _ hdiag hbuf
    · exact byState_halted _ _ _ _ hdiag hhalt

/-! ## The start of the pipeline -/

/-- In IDLE a start bit starts the pipeline, with a tick or without (30_encoding.md R65). -/
theorem exec_start_of_idle {i : Instr} {timerOk irqOk : Bool} (hs : s.state = .idle) (hcodes : legalCodes s = true)
    (hi : i = .start timerOk irqOk ∨ ∃ x, i = .startTick timerOk irqOk x) : exec i s = startPipeline timerOk irqOk s := by
  obtain ⟨hdiag, -⟩ := legalCodes_iff.mp hcodes
  obtain rfl | ⟨x, rfl⟩ := hi
  · exact byState_idle _ _ _ _ hdiag hs
  · exact byState_idle _ _ _ _ hdiag hs

theorem startPipeline_of_failed {timerOk irqOk : Bool} {cause : StartupCause}
    (h : startupCheck s.cfg timerOk irqOk = some cause) : startPipeline timerOk irqOk s = .next (raiseStartupFault cause s) :=
  startPipeline_eq_next.mpr (.inr ⟨cause, h, rfl⟩)

theorem startPipeline_of_passed {timerOk irqOk : Bool} (h : startupCheck s.cfg timerOk irqOk = none) :
    startPipeline timerOk irqOk s = .next (enterBuffering s) :=
  startPipeline_eq_next.mpr (.inl ⟨h, rfl⟩)

section

variable {cfg : Config} {timerOk irqOk : Bool}

/-! The checks in the order of 60_exceptions.md R141. -/

theorem startupCheck_eq_xformInit (hT : ¬∃ k ∈ cfg.tSupportedLog, cfg.t = 2 ^ k) :
    startupCheck cfg timerOk irqOk = some .xformInit :=
  if_pos (by rwa [← transformSupported_iff, Bool.not_eq_true] at hT)

/-- A supported T leaves the later checks to decide. -/
theorem startupCheck_of_supported (hT : ∃ k ∈ cfg.tSupportedLog, cfg.t = 2 ^ k) :
    startupCheck cfg timerOk irqOk =
      if cfg.n ≠ cfg.t then some .sizeMismatch
      else if cfg.fs = 0 ∨ timerOk = false then some .timerInit
      else if irqOk = false then some .irqReg
      else none :=
  if_neg (by simp [transformSupported_iff.mpr hT])

end

/-- Settles O6: the IDLE column of both operations, and the first check that fails. -/
theorem startChecksInOrderThenBuffers : Obligations.StartChecksInOrderThenBuffers := by
  intro s timerOk irqOk i hs hcodes hi
  rw [exec_start_of_idle hs hcodes hi]
  refine ⟨fun hT => ?_, fun hT hn => ?_, fun hT hn hfs => ?_, fun hT hn hfs htimer hirq => ?_,
    fun hT hn hfs htimer hirq => ?_⟩
  · exact startPipeline_of_failed (cause := .xformInit) (startupCheck_eq_xformInit hT)
  · exact startPipeline_of_failed (cause := .sizeMismatch) (by simp [startupCheck_of_supported hT, hn])
  · exact startPipeline_of_failed (cause := .timerInit) (by simp [startupCheck_of_supported hT, hn, hfs])
  · exact startPipeline_of_failed (cause := .irqReg) (by simp [startupCheck_of_supported hT, hn, hfs, htimer, hirq])
  · exact startPipeline_of_passed (by simp [startupCheck_of_supported hT, hn, hfs, htimer, hirq])

/-! ## The accepted tick -/

/-- In BUFFERING, with CURSOR in range, a tick is accepted. -/
theorem exec_tick_of_buffering (hs : s.state = .buffering) (hcodes : legalCodes s = true) (hc : s.cursor < s.cfg.n) (x : Int) :
    exec (.tick x) s = .next (advanceCursor (storeWord s.cursor (toPattern s.cfg.sampleW x) s)) := by
  obtain ⟨hdiag, -⟩ := legalCodes_iff.mp hcodes
  exact (byState_buffering _ _ _ _ hdiag hs).trans (acceptTick_eq_next.mpr ⟨hc, rfl⟩)

/-- Only BUF, CURSOR, STATE and the strobe. -/
theorem advanceCursor_storeWord_frame (i v : Nat) (s : State) :
    advanceCursor (storeWord i v s) =
      { s with
        buf := (advanceCursor (storeWord i v s)).buf, cursor := (advanceCursor (storeWord i v s)).cursor,
        state := (advanceCursor (storeWord i v s)).state, detValid := false } := by
  unfold advanceCursor
  split <;> rfl

/-- Settles O14: the store at CURSOR, then the two cases of the cursor. -/
theorem acceptedTickStoresTheSampleAtTheCursor : Obligations.AcceptedTickStoresTheSampleAtTheCursor := by
  intro s x hs hcodes hc hsw
  have htick := exec_tick_of_buffering hs hcodes hc x
  have hword := bufWord_advanceCursor_storeWord (s := s) (toPattern s.cfg.sampleW x)
  refine ⟨_, htick, fun timerOk irqOk => ?_, advanceCursor_storeWord_frame .., ?_, fun hx => ?_, fun j hj => ?_,
    fun hlast => ?_, fun hlast => ?_⟩
  · exact (byState_of_ne_idle (by simp [hs])).trans htick
  · rw [hword, if_pos rfl]
  · rw [readSample, hword, if_pos rfl, advanceCursor_cfg, storeWord_cfg, sext_toPattern hsw hx]
  · rw [hword, if_neg hj]
  · exact advanceCursor_of_eq (storeWord s.cursor _ s) hlast
  · obtain ⟨hcur, hst⟩ := advanceCursor_of_ne (storeWord s.cursor (toPattern s.cfg.sampleW x) s) hlast
    exact ⟨hcur, hst.trans hs⟩

end Sys2Proof.Proofs
end

section
/-! The transition relation of STATE and the strobe (40_acquisition.md R85, R88, R93), from the effects of an operation. -/

namespace Sys2Proof.Proofs

open Sys2Proof.Machine Sys2Proof.Laws

variable {s t : State} {i : Instr}

/-- The two operations that carry a start (30_encoding.md R64, R65). -/
theorem startBits_eq_some {timerOk irqOk : Bool} :
    startBits i = some (timerOk, irqOk) ↔ i = .start timerOk irqOk ∨ ∃ x, i = .startTick timerOk irqOk x := by
  cases i <;> simp [startBits]

/-- Settles O45: each effect of an operation is a row of the table or keeps STATE; the accepted tick does the one or the other
with CURSOR at N - 1 or below it. -/
theorem stateFollowsTheTransitionTable : Obligations.StateFollowsTheTransitionTable := by
  intro i s t hexec
  cases exec_effect hexec with
  | reset hi ht => exact .inr (.inl ⟨hi, by rw [ht, resetBlock_state]⟩)
  | quiet hi _ ht => exact .inl ⟨by rw [ht, clearValid_state], hi.1⟩
  | started a b hi hs hc ht =>
    exact .inr (.inr (.inl ⟨hs, by rw [ht, enterBuffering_state], a, b, startBits_eq_some.mp hi, hc⟩))
  | halted a b cause hi hs hc ht =>
    exact .inr (.inr (.inr (.inl ⟨hs, by rw [ht, raiseStartupFault_state], a, b, startBits_eq_some.mp hi, by simp [hc]⟩)))
  | accepted x hi hs hc ht =>
    rw [ht]
    obtain ⟨hlast, -, hst⟩ | ⟨-, -, hst⟩ := advanceCursor_cases (s := storeWord s.cursor (toPattern s.cfg.sampleW x) s) hc
    · exact .inr (.inr (.inr (.inr (.inl ⟨hs, hst, hlast, x, tickSample_eq_some.mp hi⟩))))
    · exact .inl ⟨hst, fun hr => by simp [hr, tickSample] at hi⟩
  | waited hi _ _ _ ht => exact .inl ⟨by rw [ht, clearValid_state, loadEnergy_state], hi.1⟩
  | completed _ hs hd _ ht => exact .inr (.inr (.inr (.inr (.inr ⟨hs, by rw [ht, complete_state], hd⟩))))

/-- Settles O46: every effect but the completion clears the strobe, and each has another STATE, another operation or another
draw than a completion. -/
theorem strobeMarksExactlyTheCompletions : Obligations.StrobeMarksExactlyTheCompletions := by
  intro i s t hexec
  cases exec_effect hexec with
  | completed hi hs hd _ ht => exact iff_of_true (by rw [ht, complete_detValid]) ⟨hs, hi, hd⟩
  | reset hi ht => simp [ht, hi]
  | quiet _ hs ht =>
    have hne : s.state ≠ .processing := fun hp => by simp [hp] at hs
    simp [ht, hne]
  | started _ _ _ hs _ ht => simp [ht, hs]
  | halted _ _ _ _ hs _ ht => simp [ht, hs]
  | accepted _ _ hs _ ht => simp [ht, hs]
  | waited hi _ hd _ ht => simp [ht, hi.2, hd]

/-- An effect that leads from BUFFERING to PROCESSING is the tick accepted at CURSOR = N - 1. -/
theorem filling_write_of_effect (h : Effect i s t) (hs : s.state = .buffering) (ht : t.state = .processing) :
    s.cursor = s.cfg.n - 1 ∧ t.cursor = 0 ∧
      ∃ x, tickSample i = some x ∧ bufWord t s.cursor = toPattern s.cfg.sampleW x := by
  cases h with
  | accepted x hi _ hc ht' =>
    obtain ⟨hlast, hcur, -⟩ | ⟨-, -, hst⟩ :=
      advanceCursor_cases (s := storeWord s.cursor (toPattern s.cfg.sampleW x) s) hc
    · exact ⟨hlast, by rw [ht', hcur], x, hi, by rw [ht', bufWord_advanceCursor_storeWord, if_pos rfl]⟩
    · simp [ht', hst, hs] at ht
  | reset _ ht' => simp [ht'] at ht
  | quiet _ _ ht' => simp [ht', hs] at ht
  | started _ _ _ hs' _ _ => simp [hs] at hs'
  | halted _ _ _ _ hs' _ _ => simp [hs] at hs'
  | waited _ hs' _ _ _ => simp [hs] at hs'
  | completed _ hs' _ _ _ => simp [hs] at hs'

/-- Settles O16: the filling write, and the flags of the two states. -/
theorem onlyTheFillingWriteEntersProcessing : Obligations.OnlyTheFillingWriteEntersProcessing := by
  intro i s t hexec hs ht
  obtain ⟨hlast, hcur, x, hi, hword⟩ := filling_write_of_effect (exec_effect hexec) hs ht
  have hread : rdGrant t = true := rdGrant_iff.mpr ht
  have hwrite : wrGrant t = false := eq_false_of_ne_true fun hw => not_wrGrant_and_rdGrant t ⟨hw, hread⟩
  exact ⟨hlast, hcur, tickEn_iff.mpr hs, hwrite, wrGrant_iff.mpr hs, hread, hwrite, x, tickSample_eq_some.mp hi, hlast ▸ hword⟩

end Sys2Proof.Proofs
end

section
/-! Buffer-full events and accepted ticks over a run (40_acquisition.md R90). -/

namespace Sys2Proof.Proofs

open Sys2Proof.Machine Sys2Proof.Laws

variable {s t : State} {i : Instr} {k : Nat}

/-! ## One cycle -/

/-- No operation writes the configuration (70_reset_and_hazards.md R168). -/
theorem cfg_of_effect (h : Effect i s t) : t.cfg = s.cfg := by
  cases h with
  | reset _ ht => rw [ht, resetBlock_cfg]
  | quiet _ _ ht => rw [ht, clearValid_cfg]
  | started _ _ _ _ _ ht => rw [ht, enterBuffering_cfg]
  | halted _ _ _ _ _ _ ht => rw [ht, raiseStartupFault_cfg]
  | accepted _ _ _ _ ht => rw [ht, advanceCursor_cfg, storeWord_cfg]
  | waited _ _ _ _ ht => rw [ht, clearValid_cfg, loadEnergy_cfg]
  | completed _ _ _ _ ht => rw [ht, complete_cfg, loadEnergy_cfg]

theorem cfg_of_step (h : step s = .next t) : t.cfg = s.cfg := by
  obtain ⟨i, -, -, heff⟩ := step_effect h
  simpa using cfg_of_effect heff

/-- 1 if the coming cycle's tick is accepted, otherwise 0. -/
def tickCount (s : State) : Nat := if (acceptedSample s).isSome then 1 else 0

/-- 1 if the coming cycle is a buffer-full event, otherwise 0. -/
def fullCount (s : State) : Nat := if bufferFull s then 1 else 0

/-- A tick counts in BUFFERING and nowhere else (40_acquisition.md R84, R86). -/
theorem tickCount_of_decode (h : decode s.cfg.sampleW (nextInput s).word = .instr i) :
    tickCount s = if s.state = .buffering ∧ (tickSample i).isSome = true then 1 else 0 := by
  rw [tickCount, acceptedSample_of_decode h]
  by_cases hs : s.state = .buffering <;> simp [hs]

/-- A buffer-full event is the transition from BUFFERING to PROCESSING (40_acquisition.md R85). -/
theorem fullCount_of_step (h : step s = .next t) :
    fullCount s = if s.state = .buffering ∧ t.state = .processing then 1 else 0 := by
  simp [fullCount, bufferFull, h]

/-- CURSOR counts the ticks modulo N: without RESET, an operation that moves it is an accepted tick, which moves it one on or,
as the filling write, from N - 1 to 0. -/
theorem cursor_balance_of_effect (h : Effect i s t) (hi : i ≠ .reset) :
    s.cursor + (if s.state = .buffering ∧ (tickSample i).isSome = true then 1 else 0) =
      t.cursor + s.cfg.n * (if s.state = .buffering ∧ t.state = .processing then 1 else 0) := by
  cases h with
  | accepted x hx hs hc ht =>
    obtain ⟨hlast, hcur, hst⟩ | ⟨-, hcur, hst⟩ :=
      advanceCursor_cases (s := storeWord s.cursor (toPattern s.cfg.sampleW x) s) hc
    · have hn : s.cursor + 1 = s.cfg.n := by
        rw [storeWord_cursor, storeWord_cfg] at hlast
        omega
      simp [ht, hs, hx, hcur, hst, hn]
    · simp [ht, hs, hx, hcur, hst]
  | reset hr _ => exact absurd hr hi
  | quiet _ hs ht =>
    have hno : s.state = .buffering → tickSample i = none := fun hb => by simpa [hb] using hs
    by_cases hb : s.state = .buffering <;> simp [ht, hb, hno]
  | started _ _ _ hs _ ht => simp [ht, hs]
  | halted _ _ _ _ hs _ ht => simp [ht, hs]
  | waited _ hs _ _ ht => simp [ht, hs]
  | completed _ hs _ _ ht => simp [ht, hs]

/-- The same over a cycle: sampling the inputs writes neither STATE nor CURSOR. -/
theorem cursor_balance_of_step (hstep : step s = .next t) (hno : nextInstr s ≠ some .reset) :
    s.cursor + tickCount s = t.cursor + s.cfg.n * fullCount s := by
  obtain ⟨i, hdec, -, heff⟩ := step_effect hstep
  have hi : i ≠ .reset := fun hr => hno (by simp only [nextInstr, hdec, hr])
  rw [tickCount_of_decode hdec, fullCount_of_step hstep]
  exact cursor_balance_of_effect (s := sampleInput (nextInput s) s) heff hi

/-! ## A run of cycles -/

theorem acceptedIn_succ_of_step (h : step s = .next t) : acceptedIn (k + 1) s = tickCount s + acceptedIn k t := by
  simp only [acceptedIn, h, tickCount]

theorem fullsIn_succ_of_step (h : step s = .next t) : fullsIn (k + 1) s = fullCount s + fullsIn k t := by
  simp only [fullsIn, h, fullCount]

theorem noResetIn_succ_of_step (h : step s = .next t) :
    noResetIn (k + 1) s = true ↔ nextInstr s ≠ some .reset ∧ noResetIn k t = true := by
  simp [noResetIn, h]

/-- The law from any CURSOR: the samples already in the block count with the ticks to come. -/
theorem fullsIn_eq_div (hinv : Invariants s) (hno : noResetIn k s = true) :
    fullsIn k s = (s.cursor + acceptedIn k s) / s.cfg.n := by
  induction k generalizing s with
  | zero => exact (Nat.div_eq_of_lt hinv.cursor).symm
  | succ k ih =>
    obtain ⟨t, hstep⟩ := step_next_of_invariants hinv
    obtain ⟨hnext, hno⟩ := (noResetIn_succ_of_step hstep).mp hno
    have hpos : 0 < s.cfg.n := Nat.zero_lt_of_lt hinv.cursor
    calc fullsIn (k + 1) s
        = fullCount s + (t.cursor + acceptedIn k t) / s.cfg.n := by
          rw [fullsIn_succ_of_step hstep, ih (invariants_of_step hinv hstep) hno, cfg_of_step hstep]
      _ = (t.cursor + acceptedIn k t + s.cfg.n * fullCount s) / s.cfg.n := by
          rw [Nat.add_mul_div_left _ _ hpos, Nat.add_comm]
      _ = (s.cursor + tickCount s + acceptedIn k t) / s.cfg.n := by
          rw [cursor_balance_of_step hstep hnext, Nat.add_right_comm]
      _ = (s.cursor + acceptedIn (k + 1) s) / s.cfg.n := by
          rw [acceptedIn_succ_of_step hstep, Nat.add_assoc]

/-- Settles O51: at CURSOR = 0 no sample of the block is there yet. -/
theorem blockCountLaw : Obligations.BlockCountLaw := by
  intro s k hinv hcur hno
  rw [fullsIn_eq_div hinv hno, hcur, Nat.zero_add]

end Sys2Proof.Proofs
end

section
/-! Bin indices, energies and the candidates of coinciding bins (41_spectral.md R101, R102, R107, R111). -/

namespace Sys2Proof.Proofs

open Sys2Proof.Machine Sys2Proof.Laws

variable {c : Config} {x : List Int}

/-! ## Bins and energies -/

/-- One fraction over 2·FS, which the integer quotient floors. -/
theorem binIndex_eq_floor {fs t f : Nat} (hfs : 0 < fs) (ht : 0 < t) :
    (binIndex fs t f : Int) = ⌊(f : ℚ) / ((fs : ℚ) / (t : ℚ)) + 1 / 2⌋ := by
  have hfrac : (f : ℚ) / (fs / t) + 1 / 2 = ((2 * f * t + fs : ℕ) : ℚ) / ((2 * fs : ℕ) : ℚ) := by
    push_cast
    field_simp
  rw [hfrac, Rat.floor_natCast_div_natCast, binIndex, Int.natCast_div]

theorem tone_bins (c : Config) (i : Fin 7) : tone (bins c) i = binIndex c.fs c.t (tone c.freq i) := tone_tonesOf _ i

/-- Settles O25: the rounding is `binIndex_eq_floor`; the default bins are evaluated. -/
theorem binIndexRoundsHalfUp : Obligations.BinIndexRoundsHalfUp :=
  ⟨fun _ _ _ hfs ht => binIndex_eq_floor hfs ht, fun _ _ _ _ => rfl, tone_bins, by decide⟩

/-- An energy is a function of its bin alone. -/
theorem tone_energies (c : Config) (x : List Int) (i : Fin 7) :
    tone (energies c x) i = if tone (bins c) i < c.t / 2 then magFn c x (tone (bins c) i) else 0 := by
  simp only [energies, tone_tonesOf, binValid, decide_eq_true_eq]

/-- Settles O26: an energy of 0 is above no threshold. -/
theorem energyIsTheMagnitudeAtTheBin : Obligations.EnergyIsTheMagnitudeAtTheBin := by
  intro c x i
  rw [tone_energies, tone_bins]
  refine ⟨fun h => if_pos h, fun h => ?_⟩
  rw [if_neg (Nat.not_lt.mpr h)]
  exact ⟨rfl, Nat.not_lt_zero _⟩

/-! ## Coinciding bins -/

theorem energies_eq_of_bins_eq {i j : Fin 7} (h : tone (bins c) i = tone (bins c) j) :
    tone (energies c x) i = tone (energies c x) j := by
  rw [tone_energies, tone_energies, h]

/-- What a scan in rising order picks, it has found above the energy to beat and above every entry before it. -/
theorem lt_of_scan_eq_some {m : Nat} (e : Fin m → Nat) {l : List (Fin m)} (hl : l.Pairwise (· < ·))
    {best : Option (Fin m) × Nat} {j : Fin m} (hbest : best.1 ≠ some j) (h : (scan e l best).1 = some j) :
    best.2 < e j ∧ ∀ i ∈ l, i < j → e i < e j := by
  induction l generalizing best with
  | nil => exact absurd h hbest
  | cons a l ih =>
    obtain ⟨ha, hl⟩ := List.pairwise_cons.mp hl
    rw [scan_cons] at h
    split at h
    case isTrue hbeat =>
      by_cases haj : a = j
      · subst haj
        exact ⟨hbeat, List.forall_mem_cons.mpr ⟨fun h => absurd h (lt_irrefl a), fun i hi hlt => absurd hlt (ha i hi).asymm⟩⟩
      · obtain ⟨hlt, hrest⟩ := ih hl (by simpa using haj) h
        exact ⟨hbeat.trans hlt, List.forall_mem_cons.mpr ⟨fun _ => hlt, hrest⟩⟩
    case isFalse hkeep =>
      obtain ⟨hlt, hrest⟩ := ih hl hbest h
      exact ⟨hlt, List.forall_mem_cons.mpr ⟨fun _ => (Nat.not_lt.mp hkeep).trans_lt hlt, hrest⟩⟩

/-- The candidate of a group has more energy than every entry before it (42_classify.md R121). -/
theorem lt_of_pickGroup_eq_some {m th : Nat} {e : Fin m → Nat} {i j : Fin m} (h : pickGroup e th = some j) (hij : i < j) :
    e i < e j := by
  rw [pickGroup_eq_scan] at h
  obtain ⟨-, hbefore⟩ := lt_of_scan_eq_some e (List.sortedLT_finRange m).pairwise (by simp) h
  exact hbefore i (List.mem_finRange i) hij

theorem pickGroup_ne_of_eq {m th : Nat} {e : Fin m → Nat} {i j : Fin m} (hij : i < j) (he : e i = e j) :
    pickGroup e th ≠ some j :=
  fun h => (lt_of_pickGroup_eq_some h hij).ne he

/-- Settles O27: the later of two equal energies does not beat the earlier. -/
theorem coincidingBinsSelectTheLowerIndex : Obligations.CoincidingBinsSelectTheLowerIndex :=
  fun _ _ => ⟨fun _ _ h => energies_eq_of_bins_eq h, fun _ _ hij h => pickGroup_ne_of_eq hij (energies_eq_of_bins_eq h),
    fun _ _ hij h => pickGroup_ne_of_eq hij (energies_eq_of_bins_eq h)⟩

end Sys2Proof.Proofs
end

section
/-! The magnitude of a bin, over the complex numbers (41_spectral.md R103 to R106, R169). -/

namespace Sys2Proof.Proofs

open Sys2Proof.Machine Sys2Proof.Laws

variable {m : Nat} {x : List Int}

/-! ## The exact value -/

/-- X[k] as the statements write it: the sum over a block of T = 2^m samples. -/
theorem sum_eq_dft (hx : x.length = 2 ^ m) (k : Nat) :
    ∑ n ∈ Finset.range (2 ^ m),
      ((x.getD n 0 : Int) : ℂ) * Complex.exp (-(2 * Real.pi * Complex.I * k * n / (2 ^ m : ℕ))) = dft m x k := by
  simp only [dft, hx, Nat.cast_pow, Nat.cast_ofNat]

/-- Each of the T terms is a sample times a number of modulus 1. -/
theorem norm_dft_le {b : ℝ} (hb : ∀ v ∈ x, |(v : ℝ)| ≤ b) (m k : Nat) : ‖dft m x k‖ ≤ x.length * b := by
  have hterm : ∀ n ∈ Finset.range x.length,
      ‖((x.getD n 0 : Int) : ℂ) * Complex.exp (-(2 * Real.pi * Complex.I * k * n / 2 ^ m))‖ ≤ b := by
    intro n hn
    have hn : n < x.length := Finset.mem_range.mp hn
    have hexp : -(2 * (Real.pi : ℂ) * Complex.I * k * n / 2 ^ m) = ((-dftAngle m k n : ℝ) : ℂ) * Complex.I := by
      unfold dftAngle; push_cast; ring
    rw [norm_mul, hexp, Complex.norm_exp_ofReal_mul_I, mul_one, Complex.norm_intCast, List.getD_eq_getElem _ _ hn]
    exact hb _ (List.getElem_mem hn)
  calc ‖dft m x k‖ ≤ ∑ _n ∈ Finset.range x.length, b := norm_sum_le_of_le _ hterm
    _ = x.length * b := by rw [Finset.sum_const, Finset.card_range, nsmul_eq_mul]

theorem abs_le_of_sampleInRange {sw : Nat} {v : Int} (hv : SampleInRange sw v) : |(v : ℝ)| ≤ 2 ^ (sw - 1) := by
  obtain ⟨hlo, hhi⟩ := hv
  exact abs_le.mpr ⟨by exact_mod_cast hlo, by exact_mod_cast hhi.le⟩

/-- The test on |X[k]|·num holds at q·den exactly up to the floor of |X[k]|·num/den. -/
theorem modulusAtLeast_mul (m : Nat) (x : List Int) (k num : Nat) {den : Nat} (hden : 0 < den) :
    (fun q => modulusAtLeast (levelOf m) (energySq4 m x k) num (q * den)) =
      fun q => decide (q ≤ ⌊‖dft m x k‖ * num / den⌋₊) := by
  have hden : (0 : ℝ) < den := Nat.cast_pos.mpr hden
  funext q
  rw [Bool.eq_iff_iff, modulusAtLeast_iff, decide_eq_true_eq, Nat.le_floor_iff (by positivity), le_div_iff₀ hden, Nat.cast_mul]

/-- The exact integers compute the floored modulus: SAMPLE_W binary digits reach every number up to MAG_MAX. -/
theorem scaledMag_eq_floor (sw m num : Nat) {den : Nat} (hden : 0 < den) (x : List Int) (k : Nat) :
    scaledMag sw m num den x k = min (2 ^ (sw - 1) - 1) ⌊‖dft m x k‖ * num / den⌋₊ := by
  have hreach : 2 ^ (sw - 1) ≤ 2 ^ sw := Nat.pow_le_pow_right Nat.two_pos (Nat.sub_le sw 1)
  simp only [scaledMag]
  rw [modulusAtLeast_mul m x k num hden, largestHolding_eq _ _ _ (Nat.zero_le _)]
  omega

/-- MAG_REF is the exact value at the scale 1/T (41_spectral.md R105). -/
theorem magRef_eq_floor (sw m : Nat) (x : List Int) (k : Nat) :
    magRef sw m x k = min (2 ^ (sw - 1) - 1) ⌊‖dft m x k‖ / (2 ^ m : ℕ)⌋₊ := by
  rw [magRef, scaledMag_eq_floor sw m 1 (Nat.two_pow_pos m), Nat.cast_one, mul_one]

/-- Settles O28: the refinement is `magRef_eq_floor`, the bound the triangle inequality. -/
theorem magRefIsTheFlooredModulus : Obligations.MagRefIsTheFlooredModulus := by
  intro sw m x k hx
  simp only [sum_eq_dft hx]
  refine ⟨magRef_eq_floor sw m x k, fun hrange => ?_⟩
  have hpos : (0 : ℝ) < (2 ^ m : ℕ) := Nat.cast_pos.mpr (Nat.two_pow_pos m)
  rw [div_le_iff₀' hpos, ← hx]
  exact norm_dft_le (fun v hv => abs_le_of_sampleInRange (hrange v hv)) m k

/-! ## The named properties of MAG_FN -/

/-- The transform of silence is 0. -/
theorem norm_dft_of_silent (hx : ∀ v ∈ x, v = 0) (m k : Nat) : ‖dft m x k‖ = 0 := by
  have hle : ‖dft m x k‖ ≤ x.length * 0 := norm_dft_le (fun v hv => by simp [hx v hv]) m k
  exact le_antisymm (by simpa using hle) (norm_nonneg _)

section
variable {c : Config} {num den k : Nat} (hden : 0 < den)
include hden

theorem scaledMag_of_silent (sw : Nat) (hx : ∀ v ∈ x, v = 0) : scaledMag sw m num den x k = 0 := by
  rw [scaledMag_eq_floor sw m num hden, norm_dft_of_silent hx]
  simp

theorem scaledMag_of_lt (h : (c.magMax : ℝ) < ‖dft m x k‖ * num / den) : scaledMag c.sampleW m num den x k = c.magMax := by
  rw [scaledMag_eq_floor c.sampleW m num hden]
  exact min_eq_left (Nat.le_floor h.le)

/-- A conforming implementation is within its error of the exact value (M5): its value on silence and its saturated value are
exact, any other is moved into the interval. -/
theorem magConforming_within (id err : Nat) :
    magConforming c id num den err m x k ≤ scaledMag c.sampleW m num den x k + err ∧
      scaledMag c.sampleW m num den x k ≤ magConforming c id num den err m x k + err := by
  unfold magConforming
  split_ifs with hsilent habove
  · rw [scaledMag_of_silent hden c.sampleW (by simpa using hsilent)]
    omega
  · rw [modulusAbove_iff, ← lt_div_iff₀ (Nat.cast_pos.mpr hden)] at habove
    rw [scaledMag_of_lt hden habove]
    omega
  · have hle : scaledMag c.sampleW m num den x k ≤ c.magMax := scaledMag_le _ _ _ _ _ _
    have hwithin := within_bounds (scaledMag c.sampleW m num den x k) err (Config.conformingMag id c x k)
    omega

/-- It saturates where the exact modulus at its scale exceeds MAG_MAX (M3), which silence never does. -/
theorem magConforming_of_lt (id err : Nat) (h : (c.magMax : ℝ) < ‖dft m x k‖ * num / den) :
    magConforming c id num den err m x k = c.magMax := by
  have hsound : ¬∀ v ∈ x, v = 0 := fun hx => by
    rw [norm_dft_of_silent hx, zero_mul, zero_div] at h
    exact absurd h (not_lt.mpr (Nat.cast_nonneg _))
  have habove := (modulusAbove_iff m x k num den c.magMax).mpr ((lt_div_iff₀ (Nat.cast_pos.mpr hden)).mp h)
  rw [magConforming, if_neg (by simpa using hsound), if_pos habove]

end

theorem magConforming_of_silent (c : Config) (id num den err m k : Nat) (hx : ∀ v ∈ x, v = 0) :
    magConforming c id num den err m x k = 0 := by
  rw [magConforming, if_pos (by simpa using hx)]

theorem magFn_of_reference {c : Config} (hf : c.magFn = .reference) (ht : c.t = 2 ^ m) (x : List Int) (k : Nat) :
    magFn c x k = scaledMag c.sampleW m 1 c.t x k := by
  simp only [magFn, hf, magRef, ht, Nat.log2_two_pow]

theorem magFn_of_conforming {c : Config} {id num den err : Nat} (hf : c.magFn = .conforming id num den err)
    (ht : c.t = 2 ^ m) (x : List Int) (k : Nat) : magFn c x k = magConforming c id num den err m x k := by
  simp only [magFn, hf, ht, Nat.log2_two_pow]

/-- M4, for MAG_REF because the transform is 0, for a conforming implementation at any scale by its definition. -/
theorem magFn_of_silent {c : Config} (ht : c.t = 2 ^ m) (hx : ∀ v ∈ x, v = 0) (k : Nat) : magFn c x k = 0 := by
  cases hf : c.magFn with
  | reference => rw [magFn_of_reference hf ht, scaledMag_of_silent (ht ▸ Nat.two_pow_pos m) c.sampleW hx]
  | conforming id num den err => rw [magFn_of_conforming hf ht, magConforming_of_silent c id num den err m k hx]

/-- Settles O29: MAG_REF is the exact value at the scale 1/T, a conforming implementation is within its error of the exact value
at its own scale. -/
theorem everyMagFnHasTheNamedProperties : Obligations.EveryMagFnHasTheNamedProperties := by
  intro c m x k ht hx
  simp only [sum_eq_dft (hx.trans ht)]
  refine ⟨magFn_le c x k, fun hsilent => magFn_of_silent ht hsilent k, fun num den err hden hf => ?_⟩
  have hexact : min c.magMax ⌊‖dft m x k‖ * num / den⌋₊ = scaledMag c.sampleW m num den x k :=
    (scaledMag_eq_floor c.sampleW m num hden x k).symm
  rw [hexact]
  obtain ⟨hf, rfl, rfl, rfl⟩ | ⟨id, hf⟩ := hf
  · rw [magFn_of_reference hf ht]
    exact ⟨scaledMag_of_lt hden, le_rfl, le_rfl⟩
  · rw [magFn_of_conforming hf ht]
    exact ⟨magConforming_of_lt hden id err, magConforming_within hden id err⟩

end Sys2Proof.Proofs
end

section
/-! The engine step of a PROCESSING cycle and how long an analysis lasts (41_spectral.md R109, R112, 00_scope.md R14). -/

namespace Sys2Proof.Proofs

open Sys2Proof.Machine Sys2Proof.Laws

variable {s : State} {i : Instr}

/-! ## One cycle in PROCESSING -/

/-- In PROCESSING every operation with a word but RESET is an engine step. -/
theorem exec_of_processing (hs : s.state = .processing) (hcodes : legalCodes s = true) (hreset : i ≠ .reset)
    (hdone : i ≠ .engineDone) : exec i s = engineStep s := by
  have hl := (legalCodes_iff.mp hcodes).1
  cases i with
  | reset => exact absurd rfl hreset
  | engineDone => exact absurd rfl hdone
  | start | startTick | tick | nop => exact byState_processing _ _ _ _ hl hs

theorem exec_engineDone_of_processing (hs : s.state = .processing) (hcodes : legalCodes s = true) :
    exec .engineDone s = engineDone s :=
  byState_processing _ _ _ _ (legalCodes_iff.mp hcodes).1 hs

theorem engineStep_of_draw (h : s.draw = true) : engineStep s = engineDone s := if_pos h

/-- Settles O30: with a draw of 0 the analysis writes E and the cycle clears the strobe. -/
theorem engineStepFollowsTheDraw : Obligations.EngineStepFollowsTheDraw := by
  intro s hs hcodes hadm i hreset hdone
  rw [exec_of_processing hs hcodes hreset hdone]
  refine ⟨fun hd => ?_, fun hd => ?_⟩
  · rw [engineStep_of_draw hd, exec_engineDone_of_processing hs hcodes]
  · exact ⟨_, engineStep_eq_next.mpr ⟨hadm, .inr ⟨hd, rfl⟩⟩, rfl⟩

/-- A word whose `rst` bit is 0 is no RESET (30_encoding.md R64). -/
theorem decodeFields_ne_reset {sw w : Nat} (h : rstBit sw w = false) : decodeFields sw w ≠ .reset := by
  simp only [decodeFields, h, Bool.false_eq_true, if_false]
  split_ifs <;> exact Instr.noConfusion

/-- The ports of an emitted result show nothing of the state it is emitted in. -/
theorem detPorts_emit (d : Detection) (s t : State) : detPorts (emit d s) = detPorts (emit d t) := by
  cases d <;> rfl

/-- A completion shows the result of E, whatever the state in which that result is emitted. -/
theorem detPorts_complete (s t : State) : detPorts (complete s) = detPorts (emit (classify s.cfg s.energy) t) :=
  detPorts_emit _ s t

section
variable (hinv : Invariants s) (hs : s.state = .processing)
include hinv hs

/-- Whatever its other bits, a word with `rst` = 0 makes the cycle an engine step. -/
theorem step_of_processing (hrst : rstBit s.cfg.sampleW (nextInput s).word = false) :
    step s = engineStep (sampleInput (nextInput s) s) := by
  obtain ⟨hdec, hdone⟩ := decode_of_lt (nextInput_word_lt_of_invariants hinv)
  rw [step_of_decode hdec]
  exact exec_of_processing hs hinv.codes (decodeFields_ne_reset hrst) hdone

/-- A cycle whose draw is 0 goes on with the analysis of the same block. -/
theorem step_waits {w : Nat} {rest : List CycleInput} (hin : s.trace = ⟨w, false⟩ :: rest)
    (hrst : rstBit s.cfg.sampleW w = false) :
    ∃ u, step s = .next u ∧ u.state = .processing ∧ u.trace = rest ∧ u.cfg = s.cfg ∧ ∀ i, bufWord u i = bufWord s i := by
  have hnext := nextInput_of_trace_cons hin
  rw [step_of_processing hinv hs (by rwa [hnext]), hnext]
  refine ⟨_, engineStep_eq_next.mpr ⟨hinv.admitted (.inr hs), .inr ⟨rfl, rfl⟩⟩, ?_⟩
  simp [hs, hin]

/-- The cycle whose draw is 1 latches the result of the block in BUF. -/
theorem step_completes {w : Nat} {rest : List CycleInput} (hin : s.trace = ⟨w, true⟩ :: rest)
    (hrst : rstBit s.cfg.sampleW w = false) :
    ∃ t, step s = .next t ∧ t.state = .buffering ∧ t.detValid = true ∧
      detPorts t = detPorts (emit (classify s.cfg (energies s.cfg (readBlock s s.cfg.t))) s) ∧
      (∀ i, bufWord t i = bufWord s i) ∧ t.cursor = 0 := by
  have hnext := nextInput_of_trace_cons hin
  rw [step_of_processing hinv hs (by rwa [hnext]), hnext]
  exact ⟨_, engineStep_eq_next.mpr ⟨hinv.admitted (.inr hs), .inl ⟨rfl, rfl⟩⟩, complete_state _, complete_detValid _,
    detPorts_complete _ s, fun _ => bufWord_complete _ _, (complete_cursor _).trans (hinv.cursorZero (by simp [hs]))⟩

end

/-- Settles O32, by induction on the waiting cycles: each keeps the invariants, the configuration and the words of BUF, from
which alone the result is computed. -/
theorem analysisEndsAtTheDrawWithTheBlocksResult : Obligations.AnalysisEndsAtTheDrawWithTheBlocksResult := by
  intro s waits last hinv hs hin hrst
  induction waits generalizing s with
  | nil =>
    refine ⟨fun j hj => ?_, ?_⟩
    · obtain rfl := Nat.le_zero.mp hj
      exact ⟨s, rfl, hs⟩
    · obtain ⟨t, hstep, ht⟩ := step_completes hinv hs hin (hrst last List.mem_cons_self)
      exact ⟨t, runCycles_succ_eq_next.mpr ⟨t, hstep, rfl⟩, ht⟩
  | cons w waits ih =>
    simp only [List.forall_mem_cons] at hrst
    obtain ⟨hlast, hw, hwaits⟩ := hrst
    obtain ⟨u, hstep, hu, htrace, hcfg, hbuf⟩ := step_waits hinv hs hin hw
    obtain ⟨hwait, t, hrun, hst, hvalid, hports, hword, hcur⟩ :=
      ih u (invariants_of_step hinv hstep) hu htrace (hcfg ▸ List.forall_mem_cons.mpr ⟨hlast, hwaits⟩)
    refine ⟨fun j hj => ?_, t, runCycles_succ_eq_next.mpr ⟨u, hstep, hrun⟩, hst, hvalid, ?_, fun i => ?_, hcur⟩
    · cases j with
      | zero => exact ⟨s, rfl, hs⟩
      | succ j =>
        obtain ⟨v, hv, hvs⟩ := hwait j (Nat.le_of_succ_le_succ hj)
        exact ⟨v, runCycles_succ_eq_next.mpr ⟨u, hstep, hv⟩, hvs⟩
    · rw [hports, hcfg, readBlock_congr hcfg fun i _ => hbuf i, detPorts_emit]
    · rw [hword, hbuf]

end Sys2Proof.Proofs
end

section
/-! The candidate of a group, the comparator trees and the Detection Result (42_classify.md R121 to R124, R130). -/

namespace Sys2Proof.Proofs

open Sys2Proof.Machine Sys2Proof.Laws

/-! ## PickGroup -/

section

variable {m th : Nat} {e : Fin m → Nat} {j : Fin m}

/-- A group has no candidate and no entry above the threshold, or its candidate is above it and a maximum. -/
theorem pickGroup_cases (e : Fin m → Nat) (th : Nat) :
    (pickGroup e th = none ∧ ∀ i, e i ≤ th) ∨ ∃ j, pickGroup e th = some j ∧ th < e j ∧ ∀ i, e i ≤ e j := by
  rw [pickGroup_eq_scan]
  obtain ⟨-, hbound, hnone | ⟨j, -, hsome, hlt⟩⟩ := scan_spec e (List.finRange m) (none, th)
  · rw [hnone] at hbound ⊢
    exact .inl ⟨rfl, fun i => hbound i (List.mem_finRange i)⟩
  · rw [hsome] at hbound ⊢
    exact .inr ⟨j, rfl, hlt, fun i => hbound i (List.mem_finRange i)⟩

theorem pickGroup_eq_none_iff : pickGroup e th = none ↔ ∀ i, e i ≤ th := by
  obtain ⟨hnone, hle⟩ | ⟨j, hsome, hlt, -⟩ := pickGroup_cases e th
  · exact iff_of_true hnone hle
  · exact iff_of_false (by simp [hsome]) (fun hle => (hle j).not_gt hlt)

/-- The first maximum is unique: an earlier candidate would be smaller, and a later one would have to be larger. -/
theorem pickGroup_eq_some_iff :
    pickGroup e th = some j ↔ th < e j ∧ (∀ i, i < j → e i < e j) ∧ ∀ i, j < i → e i ≤ e j := by
  obtain ⟨hnone, hle⟩ | ⟨k, hsome, hlt, hmax⟩ := pickGroup_cases e th
  · exact iff_of_false (by simp [hnone]) (fun h => (hle j).not_gt h.1)
  · constructor
    · intro hj
      obtain rfl : k = j := Option.some.inj (hsome.symm.trans hj)
      exact ⟨hlt, fun _ => lt_of_pickGroup_eq_some hsome, fun i _ => hmax i⟩
    · rintro ⟨-, hbefore, hafter⟩
      obtain hkj | rfl | hjk := lt_trichotomy k j
      · exact absurd (hbefore k hkj) (hmax j).not_gt
      · exact hsome
      · exact absurd (lt_of_pickGroup_eq_some hsome hjk) (hafter k hjk).not_gt

/-- An entry at the threshold is no candidate. -/
theorem pickGroup_ne_of_le (h : e j ≤ th) : pickGroup e th ≠ some j :=
  fun hj => h.not_gt (pickGroup_eq_some_iff.mp hj).1

/-- A maximum above the threshold with no equal before it is the candidate. -/
theorem pickGroup_of_first_max (hlt : th < e j) (hmax : ∀ i, e i ≤ e j) (hfirst : ∀ i, i < j → e i < e j) :
    pickGroup e th = some j :=
  pickGroup_eq_some_iff.mpr ⟨hlt, hfirst, fun i _ => hmax i⟩

/-- The only entry above the threshold is the candidate. -/
theorem pickGroup_of_single (hlt : th < e j) (hrest : ∀ i, i ≠ j → e i ≤ th) : pickGroup e th = some j :=
  pickGroup_eq_some_iff.mpr
    ⟨hlt, fun i hi => (hrest i hi.ne).trans_lt hlt, fun i hi => (hrest i hi.ne').trans hlt.le⟩

end

/-- Settles O36. -/
theorem pickGroupIsTheFirstStrictMaximum : Obligations.PickGroupIsTheFirstStrictMaximum :=
  fun _ _ _ => ⟨fun _ => pickGroup_eq_some_iff, pickGroup_eq_none_iff⟩

/-! ## The comparator trees -/

section

variable {m : Nat} (e : Fin m → Nat) (th : Nat)

@[simp] theorem treeWinner_none_left (b : Option (Fin m)) : treeWinner e none b = b := rfl

@[simp] theorem treeWinner_none_right (a : Option (Fin m)) : treeWinner e a none = a := by cases a <;> rfl

theorem treeWinner_some_some (i j : Fin m) :
    treeWinner e (some i) (some j) = if e i < e j then some j else some i := rfl

/-- Where ties keep the left operand, the winner does not depend on the arrangement of the comparators. -/
theorem treeWinner_assoc (a b c : Option (Fin m)) :
    treeWinner e (treeWinner e a b) c = treeWinner e a (treeWinner e b c) := by
  cases a with
  | none => simp
  | some i =>
    cases b with
    | none => simp
    | some j =>
      cases c with
      | none => simp
      | some k =>
        rw [treeWinner_some_some, treeWinner_some_some]
        by_cases hij : e i < e j <;> by_cases hjk : e j < e k
        · simp [hij, hjk, treeWinner_some_some, hij.trans hjk]
        · simp [hij, hjk, treeWinner_some_some]
        · simp [hij, hjk, treeWinner_some_some]
        · have hik : ¬e i < e k := by omega
          simp [hij, hjk, hik, treeWinner_some_some]

/-- The energy that the next entry of a scan has to beat. -/
def energyToBeat : Option (Fin m) → Nat
  | none => th
  | some i => e i

/-- The comparators in a row, one leaf after the other. -/
def treeChain (l : List (Fin m)) (a : Option (Fin m)) : Option (Fin m) :=
  l.foldl (fun a j => treeWinner e a (treeLeaf e th j)) a

theorem treeWinner_treeLeaf {a : Option (Fin m)} (ha : th ≤ energyToBeat e th a) (j : Fin m) :
    treeWinner e a (treeLeaf e th j) = if energyToBeat e th a < e j then some j else a := by
  unfold treeLeaf
  cases a with
  | none => rfl
  | some i =>
    by_cases hj : th < e j
    · rw [if_pos hj, treeWinner_some_some]
      rfl
    · rw [if_neg hj, treeWinner_none_right, if_neg (by omega)]

/-- The scan of PickGroup is the chain of comparators, its second component the energy to beat. -/
theorem scan_eq_treeChain (l : List (Fin m)) {a : Option (Fin m)} (ha : th ≤ energyToBeat e th a) :
    (scan e l (a, energyToBeat e th a)).1 = treeChain e th l a := by
  induction l generalizing a with
  | nil => rfl
  | cons j l ih =>
    rw [scan_cons, treeChain, List.foldl_cons, treeWinner_treeLeaf e th ha j]
    by_cases hj : energyToBeat e th a < e j
    · rw [if_pos hj, if_pos hj]
      exact ih (a := some j) (ha.trans hj.le)
    · rw [if_neg hj, if_neg hj]
      exact ih ha

theorem pickGroup_eq_treeChain : pickGroup e th = treeChain e th (List.finRange m) none :=
  scan_eq_treeChain e th (List.finRange m) (a := none) le_rfl

end

theorem treeRows_eq_pickGroup (e : Fin 4 → Nat) (th : Nat) : treeRows e th = pickGroup e th := by
  rw [pickGroup_eq_treeChain, treeRows, ← treeWinner_assoc]
  rfl

theorem treeCols_eq_pickGroup (e : Fin 3 → Nat) (th : Nat) : treeCols e th = pickGroup e th := by
  rw [pickGroup_eq_treeChain]
  rfl

/-- Settles O37: PickGroup is a chain of comparators, and their arrangement does not matter. -/
theorem comparatorTreesEqualPickGroup : Obligations.ComparatorTreesEqualPickGroup :=
  ⟨treeRows_eq_pickGroup, treeCols_eq_pickGroup⟩

/-! ## The Detection Result of two candidates -/

section

variable {c : Config} {e : Tones Nat} {r : Fin 4} {k : Fin 3}

theorem classify_eq_hit_iff {sym : Symbol} :
    classify c e = .hit r k sym ↔
      pickGroup (rowGroup e) c.threshold = some r ∧ pickGroup (colGroup e) c.threshold = some k ∧
        sym = gridAt c.grid r k := by
  unfold classify
  split
  · next row col hrow hcol =>
    rw [hrow, hcol, Detection.hit.injEq, Option.some_inj, Option.some_inj]
    constructor <;> rintro ⟨rfl, rfl, rfl⟩ <;> exact ⟨rfl, rfl, rfl⟩
  · next hno => exact iff_of_false Detection.noConfusion (fun h => hno r k h.1 h.2.1)

theorem classify_eq_noTone_iff :
    classify c e = .noTone ↔
      pickGroup (rowGroup e) c.threshold = none ∨ pickGroup (colGroup e) c.threshold = none := by
  unfold classify
  cases pickGroup (rowGroup e) c.threshold with
  | none => simp
  | some row => cases pickGroup (colGroup e) c.threshold <;> simp

/-- Two candidates give the symbol where they meet in the grid. -/
theorem classify_of_candidates (hr : pickGroup (rowGroup e) c.threshold = some r)
    (hk : pickGroup (colGroup e) c.threshold = some k) : classify c e = .hit r k (gridAt c.grid r k) :=
  classify_eq_hit_iff.mpr ⟨hr, hk, rfl⟩

/-- A row group with nothing above the threshold gives "no tone". -/
theorem classify_of_silent_rows (h : ∀ r, rowGroup e r ≤ c.threshold) : classify c e = .noTone :=
  classify_eq_noTone_iff.mpr (.inl (pickGroup_eq_none_iff.mpr h))

/-- A column group with nothing above the threshold gives "no tone". -/
theorem classify_of_silent_cols (h : ∀ k, colGroup e k ≤ c.threshold) : classify c e = .noTone :=
  classify_eq_noTone_iff.mpr (.inr (pickGroup_eq_none_iff.mpr h))

end

/-- Settles O38. -/
theorem symbolNeedsBothGroups : Obligations.SymbolNeedsBothGroups :=
  fun _ _ => ⟨fun _ _ _ => classify_eq_hit_iff, classify_eq_noTone_iff⟩

/-- Settles O39: each law is a case of PickGroup in a row or a column group, carried to the Detection Result. -/
theorem classifierLaws : Obligations.ClassifierLaws := by
  intro c e
  refine ⟨fun r k hr hk hrows hcols => ?_, fun h => ?_, fun r hr => ?_, fun k hk => ?_, fun r hr => ?_, fun k hk => ?_,
    fun a b _ hlt _ hmax hfirst => ?_, fun a b _ hlt _ hmax hfirst => ?_, fun _ hcols => ?_, fun _ hrows => ?_⟩
  · exact classify_of_candidates (pickGroup_of_single hr hrows) (pickGroup_of_single hk hcols)
  · exact classify_of_silent_rows fun r => h _
  · exact pickGroup_ne_of_le hr.le
  · exact pickGroup_ne_of_le hk.le
  · exact pickGroup_of_single (by omega)
  · exact pickGroup_of_single (by omega)
  · exact pickGroup_of_first_max hlt hmax hfirst
  · exact pickGroup_of_first_max hlt hmax hfirst
  · exact classify_of_silent_cols hcols
  · exact classify_of_silent_rows hrows

/-! ## ENGINE_DONE -/

/-- Settles O31: the next state is the completion of the block's energies, and its ports show their Detection Result. -/
theorem engineDoneLatchesTheResult : Obligations.EngineDoneLatchesTheResult := by
  rintro s x hs hcodes hadm rfl
  have hports := detPorts_complete (loadEnergy (energies s.cfg (readBlock s s.cfg.t)) s) s
  rw [loadEnergy_cfg, loadEnergy_energy] at hports
  rw [exec_engineDone_of_processing hs hcodes]
  refine ⟨_, engineDone_eq_next.mpr ⟨hadm, rfl⟩, complete_detValid _, complete_state _, tickEn_iff.mpr (complete_state _),
    fun r k hr hk => ?_, fun hnone => ?_, ?_⟩
  · rw [hports, classify_of_candidates hr hk]
    rfl
  · rw [hports, classify_eq_noTone_iff.mpr hnone]
    rfl
  · simp

end Sys2Proof.Proofs
end

section
/-! The startup fault and the HALTED state it leads to (60_exceptions.md R144, R145, R150). -/

namespace Sys2Proof.Proofs

open Sys2Proof.Machine Sys2Proof.Laws

/-- The code recorded is that of the first check that fails, in the order of 60_exceptions.md R141. -/
theorem diagOf_of_startupCheck {cfg : Config} {timerOk irqOk : Bool} {cause : StartupCause}
    (h : startupCheck cfg timerOk irqOk = some cause) :
    (¬∃ k ∈ cfg.tSupportedLog, cfg.t = 2 ^ k) ∧ diagOf cause = .xformInit ∨
      (∃ k ∈ cfg.tSupportedLog, cfg.t = 2 ^ k) ∧
        (cfg.n ≠ cfg.t ∧ diagOf cause = .sizeMismatch ∨
          cfg.n = cfg.t ∧
            ((cfg.fs = 0 ∨ timerOk = false) ∧ diagOf cause = .timerInit ∨
              (cfg.fs ≠ 0 ∧ timerOk = true) ∧ irqOk = false ∧ diagOf cause = .irqReg)) := by
  by_cases hT : ∃ k ∈ cfg.tSupportedLog, cfg.t = 2 ^ k
  · refine .inr ⟨hT, ?_⟩
    rw [startupCheck_of_supported hT] at h
    split at h
    · next hn => cases h; exact .inl ⟨hn, rfl⟩
    next hn =>
    refine .inr ⟨not_not.mp hn, ?_⟩
    split at h
    · next htimer => cases h; exact .inl ⟨htimer, rfl⟩
    next htimer =>
    split at h
    · next hirq => cases h; exact .inr ⟨by simpa using htimer, hirq, rfl⟩
    · cases h
  · rw [startupCheck_eq_xformInit hT] at h
    cases h
    exact .inl ⟨hT, rfl⟩

/-- Settles O7: of the effects an operation can have, only RESET and the startup fault write DIAG. -/
theorem onlyStartRecordsAFaultAndTheFirst : Obligations.OnlyStartRecordsAFaultAndTheFirst := by
  refine ⟨⟨rfl, rfl, rfl, rfl⟩, fun i s t hexec hne => ?_⟩
  cases exec_effect hexec with
  | reset hi _ => exact .inl hi
  | halted timerOk irqOk cause hi hs hc ht =>
    refine .inr ⟨hs, by rw [ht, raiseStartupFault_state], timerOk, irqOk, startBits_eq_some.mp hi, ?_⟩
    rw [ht, raiseStartupFault_diag]
    exact diagOf_of_startupCheck hc
  | quiet _ _ ht => exact absurd (by simp [ht]) hne
  | started _ _ _ _ _ ht => exact absurd (by simp [ht]) hne
  | accepted _ _ _ _ ht => exact absurd (by simp [ht]) hne
  | waited _ _ _ _ ht => exact absurd (by simp [ht]) hne
  | completed _ _ _ _ ht => exact absurd (by simp [ht]) hne

/-- The codes of 30_encoding.md R70 that a startup fault records. -/
theorem diagCode_diagOf_bounds (cause : StartupCause) :
    1 ≤ (diagCode (diagOf cause)).toNat ∧ (diagCode (diagOf cause)).toNat ≤ 4 := by
  cases cause <;> decide

/-- Settles O8: the next state is `raiseStartupFault cause s`, read field by field. -/
theorem startupFaultEntryIsPrecise : Obligations.StartupFaultEntryIsPrecise := by
  intro s timerOk irqOk cause i hs hcodes hfail hi
  have hexec : exec i s = .next (raiseStartupFault cause s) :=
    (exec_start_of_idle hs hcodes hi).trans (startPipeline_of_failed hfail)
  obtain ⟨hlow, hhigh⟩ := diagCode_diagOf_bounds cause
  exact ⟨_, hexec, rfl, raiseStartupFault_diag .., hlow, hhigh, by simp [tickEn, hs], rfl,
    haltedO_iff.mpr (raiseStartupFault_state ..)⟩

/-- Settles O11: the HALTED column of the four words without RESET, and RESET as the only way out. -/
theorem haltedIsLeftOnlyByReset : Obligations.HaltedIsLeftOnlyByReset := by
  intro s hs hcodes
  obtain ⟨hnop, htick, hstart, hstartTick⟩ := nopClearsOnlyTheStrobe s hcodes
  refine ⟨fun timerOk irqOk x => ⟨hstart timerOk irqOk (.inr hs), hstartTick timerOk irqOk x hs, htick x (.inr hs), ?_⟩,
    ⟨resetBlock s, rfl, resetBlock_state s, resetBlock_diag s⟩,
    fun i t hexec ht => eq_reset_of_leaves_halted (exec_effect hexec) hs ht⟩
  exact hnop (by simp [hs])

end Sys2Proof.Proofs
end

section
/-! RESET (70_reset_and_hazards.md R160, R161) and the configuration over a run (R168). -/

namespace Sys2Proof.Proofs

open Sys2Proof.Machine Sys2Proof.Laws

/-! ## The configuration -/

/-- A run keeps the configuration, by induction on its cycles. -/
theorem cfg_of_runCycles {s t : State} {k : Nat} (h : runCycles k s = .next t) : t.cfg = s.cfg := by
  induction k generalizing s with
  | zero =>
    cases h
    rfl
  | succ k ih =>
    obtain ⟨u, hstep, hrun⟩ := runCycles_succ_eq_next.mp h
    exact (ih hrun).trans (cfg_of_step hstep)

/-- Settles O50: no effect of an operation writes the configuration, so no cycle of a run does. -/
theorem configurationNeverChanges : Obligations.ConfigurationNeverChanges :=
  ⟨fun _ _ _ hexec => cfg_of_effect (exec_effect hexec), fun _ _ _ hrun => cfg_of_runCycles hrun⟩

/-! ## RESET -/

theorem exec_reset (s : State) : exec .reset s = .next (resetBlock s) := rfl

/-- `rst` is the topmost row of 30_encoding.md R64, whatever the other bits. -/
theorem decode_of_rst {sw w : Nat} (hw : w < 2 ^ wordWidth sw) (hrst : rstBit sw w = true) :
    decode sw w = .instr .reset := by
  obtain ⟨hreset, -⟩ := rstAboveStartAboveTick sw w hw
  exact hreset hrst

/-- A cycle with `rst` = 1 is a RESET in every STATE and with either completion draw. -/
theorem step_of_rst {s : State} (hw : (nextInput s).word < 2 ^ wordWidth s.cfg.sampleW)
    (hrst : rstBit s.cfg.sampleW (nextInput s).word = true) :
    step s = .next (resetBlock (sampleInput (nextInput s) s)) := by
  rw [step_of_decode (decode_of_rst hw hrst), exec_reset]

/-- START in IDLE leaves CURSOR where it is, whether its checks pass or one fails. -/
theorem cursor_of_start {s t : State} {timerOk irqOk : Bool} (hs : s.state = .idle) (hcodes : legalCodes s = true)
    (h : exec (.start timerOk irqOk) s = .next t) : t.cursor = s.cursor := by
  obtain ⟨u, hu, -, hcur⟩ := startPipeline_next timerOk irqOk s
  rw [exec_start_of_idle hs hcodes (.inl rfl), hu] at h
  cases h
  exact hcur

/-- Settles O3: every value is a field of `resetBlock`, or a flag of its STATE. -/
theorem resetRestoresEveryRegister : Obligations.ResetRestoresEveryRegister := by
  refine ⟨fun s => ⟨resetBlock s, exec_reset s, ?_⟩, fun _ _ hw hrst => decode_of_rst hw hrst⟩
  simp [tickEn, haltedO]

/-- Settles O5: the cycle is a RESET, and the START that follows it in IDLE keeps CURSOR 0. -/
theorem resetAbortsTheAnalysis : Obligations.ResetAbortsTheAnalysis :=
  fun _ _ hw hrst => ⟨_, step_of_rst hw hrst, resetBlock_state _, resetBlock_detValid _, rfl, resetBlock_cursor _,
    fun _ _ _ hstart => cursor_of_start (resetBlock_state _) rfl hstart⟩

end Sys2Proof.Proofs
end

section
/-! Where the model stops by name: the engine in a configuration START refuses, a write outside BUF, ENGINE_DONE outside
PROCESSING (log entries 14 to 16). -/

namespace Sys2Proof.Proofs

open Sys2Proof.Machine Sys2Proof.Laws

variable {s : State} {i : Instr}

/-- A fault ends a sequence. -/
@[simp] theorem andThen_fault (e : Fault) (f : State → Result) : andThen (.fault e) f = .fault e := rfl

/-! ## The engine -/

section
variable (hadm : configAdmitted s.cfg = false)
include hadm

theorem analyse_of_not_admitted : analyse s = .fault .engineConfiguration := if_neg (by simp [hadm])

theorem engineDone_of_not_admitted : engineDone s = .fault .engineConfiguration := by
  rw [engineDone, analyse_of_not_admitted hadm, andThen_fault]

/-- Whatever the completion draw, an engine step begins with the analysis. -/
theorem engineStep_of_not_admitted : engineStep s = .fault .engineConfiguration := by
  unfold engineStep
  split
  · exact engineDone_of_not_admitted hadm
  · rw [analyse_of_not_admitted hadm, andThen_fault]

end

/-- In an admitted configuration the engine step answers for either draw, with no condition on BUF. -/
theorem engineStep_next_of_admitted (hadm : configAdmitted s.cfg = true) : ∃ t, engineStep s = .next t := by
  cases hd : s.draw with
  | false => exact ⟨_, engineStep_eq_next.mpr ⟨hadm, .inr ⟨hd, rfl⟩⟩⟩
  | true => exact ⟨_, engineStep_eq_next.mpr ⟨hadm, .inl ⟨hd, rfl⟩⟩⟩

/-- Settles O34: in PROCESSING an operation is the event ENGINE_DONE or an engine step, and both run the analysis first. -/
theorem engineStopsOnlyOnAnUnadmittedConfiguration : Obligations.EngineStopsOnlyOnAnUnadmittedConfiguration := by
  intro s i hs hcodes hreset
  by_cases hdone : i = .engineDone
  · rw [hdone, exec_engineDone_of_processing hs hcodes]
    exact ⟨engineDone_of_not_admitted, fun hadm => ⟨_, engineDone_eq_next.mpr ⟨hadm, rfl⟩⟩⟩
  · rw [exec_of_processing hs hcodes hreset hdone]
    exact ⟨engineStep_of_not_admitted, engineStep_next_of_admitted⟩

/-- Settles O33: three of the table's four columns refuse the event. -/
theorem engineDoneOutsideProcessingIsRefused : Obligations.EngineDoneOutsideProcessingIsRefused := by
  intro s hcodes hne
  obtain ⟨hdiag, hs | hs | hs | hs⟩ := legalCodes_iff.mp hcodes
  · exact byState_idle _ _ _ _ hdiag hs
  · exact byState_buffering _ _ _ _ hdiag hs
  · exact absurd hs hne
  · exact byState_halted _ _ _ _ hdiag hs

/-! ## Writes outside the buffer -/

theorem bufWrite_of_le {j : Nat} (h : s.cfg.n ≤ j) (v : Nat) : bufWrite j v s = .fault .bufIndexOutOfRange :=
  if_neg (Nat.not_lt.mpr h)

/-- A tick writes at CURSOR, so it stops where CURSOR is no index of BUF. -/
theorem acceptTick_of_le (h : s.cfg.n ≤ s.cursor) (x : Int) : acceptTick x s = .fault .bufIndexOutOfRange := by
  rw [acceptTick, bufWrite_of_le h, andThen_fault]

/-- Settles O17: the BUFFERING column of both operations is the accepted tick. -/
theorem writeOutsideTheBufferStops : Obligations.WriteOutsideTheBufferStops := by
  intro s x timerOk irqOk hs hcodes hcur
  obtain ⟨hdiag, -⟩ := legalCodes_iff.mp hcodes
  have hstop := acceptTick_of_le hcur x
  exact ⟨(byState_buffering _ _ _ _ hdiag hs).trans hstop, (byState_buffering _ _ _ _ hdiag hs).trans hstop⟩

end Sys2Proof.Proofs
end

section
/-! The words on the input ports (log entries 9 and 17), and what the model chooses for the state after reset (log entries 4
and 20). -/

namespace Sys2Proof.Proofs

open Sys2Proof.Machine Sys2Proof.Laws

/-! ## Input words -/

/-- Placing a word replaces the first cycle's word and keeps the cycles after it. -/
theorem withNextWord_eq_cons (w : Nat) (trace : List CycleInput) :
    ∃ done, withNextWord w trace = ⟨w, done⟩ :: trace.tail := by
  cases trace with
  | nil => exact ⟨false, rfl⟩
  | cons c rest => exact ⟨c.done, rfl⟩

/-- A word of WW bits is placed as it is: neither truncation cuts it. -/
theorem withFetchWord_trace {s : State} {nbits w : Nat} (hn : w < 2 ^ nbits) (hw : w < 2 ^ wordWidth s.cfg.sampleW) :
    (s.withFetchWord nbits w).trace = withNextWord w s.trace := by
  rw [State.withFetchWord, Nat.mod_eq_of_lt hn, Nat.mod_eq_of_lt hw]

/-- Settles O22: the placed word is the head of the new trace, before the old trace's tail. -/
theorem placedWordIsTheNextWord : Obligations.PlacedWordIsTheNextWord := by
  intro s nbits w hn hw
  obtain ⟨done, hcons⟩ := withNextWord_eq_cons w s.trace
  have htrace := (withFetchWord_trace hn hw).trans hcons
  exact ⟨by rw [nextInput_of_trace_cons htrace], rfl, by rw [htrace, List.tail_cons]⟩

theorem decode_of_le {sw w : Nat} (h : 2 ^ wordWidth sw ≤ w) : decode sw w = .rejected .widerThanWord :=
  if_neg (Nat.not_lt.mpr h)

/-- Settles O23: the decoder rejects the number, and the step refuses what is rejected. -/
theorem numbersWiderThanAWordAreRefused : Obligations.NumbersWiderThanAWordAreRefused := by
  intro s h
  rw [step, decode_of_le h]

/-! ## After reset -/

/-- Settles O4: RESET lists no word of BUF and draws the free values at the step's own index. -/
theorem resetLeavesEveryWordOfBufAFreeValue : Obligations.ResetLeavesEveryWordOfBufAFreeValue := by
  intro s t i h
  rw [exec_reset] at h
  cases h
  refine ⟨by rw [resetBlock_buf, readWord_nil], bufWord_resetBlock s i, ?_⟩
  rw [bufWord_resetBlock]
  exact unwrittenWord_lt _ _ _

/-- Settles O2: `State.reset` is `State.resetWith` of a literal configuration, whose fields are compared one by one. -/
theorem resetStateHasTheDefaultParameters : Obligations.ResetStateHasTheDefaultParameters :=
  ⟨rfl, by decide⟩

end Sys2Proof.Proofs
end
